-- ==== Sys2Proof/Word.lean ====
section
/-! DEFINITION. Word types of the CORE: Word (u8), Address (u16), instruction words, register numbers (00_scope.md R7, R9, R10). -/

namespace Sys2Proof

/-- A Word (u8): a modular 8-bit integer (R9). -/
abbrev Byte := BitVec 8

/-- An Address (u16): a modular 16-bit integer (R9). -/
abbrev Addr := BitVec 16

/-- A 16-bit instruction word, the byte at pc in bits 15..8 (R50, R43). -/
abbrev InstrWord := BitVec 16

/-- A 12-bit immediate NNN (R52). -/
abbrev Imm12 := BitVec 12

/-- The number of a general register V0..VF (R15, R56). -/
abbrev Reg := Fin 16

/-- VF, the flag register (R7 FLAG_REG = 15). -/
abbrev vF : Reg := 15

/-- `zext_16` of a Word or of a 12-bit value (R10). -/
abbrev zext16 (n : Nat) (v : BitVec n) : Addr := v.setWidth 16

end Sys2Proof
end

