-- ==== Sys2Proof/Config.lean ====
section
/-! DEFINITION. What a machine fixes (the parameters of 00_scope.md R8), the bank descriptors of the memory map (20_memory.md R32), and the free values: the RANDOM and ELAPSED draws. -/

namespace Sys2Proof.Machine

/-- VIDEO_OOB_POLICY (R8, R98). -/
inductive OobPolicy where
  | wrap
  | strict
deriving DecidableEq, Repr

/-- The scalar parameters of R8. They are fixed for a machine: no step and no host operation changes them. -/
structure Config where
  /-- STACK_LIMIT: none (unbounded), or a depth n ≥ 1. -/
  stackLimit : Option Nat
  /-- SHIFT_USES_VY: whether SHR and SHL shift V[Y] instead of V[X]. -/
  shiftUsesVy : Bool
  /-- VIDEO_OOB_POLICY. -/
  oobPolicy : OobPolicy
deriving DecidableEq, Repr

/-- The defaults of R8 (decisions D6, D4, D7). -/
def Config.default : Config := { stackLimit := none, shiftUsesVy := false, oobPolicy := .wrap }

/-- STACK_LIMIT is none or at least 1 (R8). -/
abbrev Config.wf (c : Config) : Prop := c.stackLimit ≠ some 0

/-- The capability of a bank's store (R32). -/
inductive Capability where
  | readWrite
  | readOnly
  | writeOnly
deriving DecidableEq, Repr

/-- "an inclusive [min, max] Address interval" (R32). -/
structure MemRange where
  min : Addr
  max : Addr
deriving DecidableEq, Repr

/-- A bank: a name, a range, a capability and a byte-array store of a fixed length (R32, R33).
`init` is what the store is initialised with: the byte at offset o is `init[o]`, and 0x00 past the end of
`init` ("zero- or file-initialized"). What has been written since stands in `Memory.cells`. -/
structure Bank where
  name  : String
  range : MemRange
  cap   : Capability
  len   : Nat
  init  : List Byte
deriving DecidableEq, Repr

/-- One ELAPSED draw, num / (denPred + 1) seconds: every non-negative rational, and nothing else (R8, R127). -/
structure Elapsed where
  num     : Nat
  denPred : Nat
deriving DecidableEq, Repr, Inhabited

/-- The RANDOM draw (R8, R89): the n-th byte a machine draws, when the host has queued none. A free value: no
body, so a claim holds whatever it is (log entry 4). -/
opaque Config.randomDraw : Nat → Byte

/-- The ELAPSED draw (R8, R127): the duration of the n-th tick, when the host has queued none. A free value: no
body, so a claim holds for every pacing (log entry 3). -/
opaque Config.elapsedDraw : Nat → Elapsed

end Sys2Proof.Machine
end

