-- ==== Sys2Proof/Machine/DefaultMap.lean ====
section
/-! DEFINITION. The default FONT and MEMORY_MAP (20_memory.md R41, R42), in definitions a repair may mend. -/

namespace Sys2Proof.Machine

/-- Glyphs 0 to 7 of the default FONT, 5 bytes each (R42). -/
def fontLow : List Byte :=
  [0xF0, 0x90, 0x90, 0x90, 0xF0] ++ [0x20, 0x60, 0x20, 0x20, 0x70] ++
  [0xF0, 0x10, 0xF0, 0x80, 0xF0] ++ [0xF0, 0x10, 0xF0, 0x10, 0xF0] ++
  [0x90, 0x90, 0xF0, 0x10, 0x10] ++ [0xF0, 0x80, 0xF0, 0x10, 0xF0] ++
  [0xF0, 0x80, 0xF0, 0x90, 0xF0] ++ [0xF0, 0x10, 0x20, 0x40, 0x40]

/-- Glyphs 8 to F of the default FONT (R42). -/
def fontHigh : List Byte :=
  [0xF0, 0x90, 0xF0, 0x90, 0xF0] ++ [0xF0, 0x90, 0xF0, 0x10, 0xF0] ++
  [0xF0, 0x90, 0xF0, 0x90, 0x90] ++ [0xE0, 0x90, 0xE0, 0x90, 0xE0] ++
  [0xF0, 0x80, 0x80, 0x80, 0xF0] ++ [0xE0, 0x90, 0x90, 0x90, 0xE0] ++
  [0xF0, 0x80, 0xF0, 0x80, 0xF0] ++ [0xF0, 0x80, 0xF0, 0x80, 0x80]

/-- FONT, the default: the standard CHIP-8 hexadecimal font (R42, decision D14). -/
def standardFont : List Byte := fontLow ++ fontHigh

/-- The font bank over 0x0000..0x004F, read-only (R41 order 1). -/
def fontBank (font : List Byte) : Bank :=
  { name := "font", range := ⟨0x0000#16, 0x004F#16⟩, cap := .readOnly, len := 80, init := font }

/-- The program bank over 0x0200..0x0FFF, read-write (R41 order 2). -/
def programBank : Bank :=
  { name := "program", range := ⟨0x0200#16, 0x0FFF#16⟩, cap := .readWrite, len := 3584, init := [] }

/-- MEMORY_MAP, the default, holding a given FONT (R41, decision D13). -/
def defaultMap (font : List Byte) : List Bank := [fontBank font, programBank]

/-- The address of the first instruction (R7 PC_RESET). -/
def pcReset : Addr := 0x0200#16

end Sys2Proof.Machine
end

