-- ==== Sys2Proof/Machine/State.lean ====
section
/-! DEFINITION. The state of the CORE (10_state.md), plain data; the errors a tick can raise (60_exceptions.md R117, R118); the reasons a step can stop; the state after reset (R30). -/

namespace Sys2Proof.Machine

/-! ### Errors (R117, R118) -/

/-- Which kind of access a bank refused (R117 kind 3). -/
inductive Access where
  | read
  | write
deriving DecidableEq, Repr

/-- The numbered error kinds of R117. -/
inductive ErrorKind where
  | decodeError
  | unmappedAddress
  | unsupportedOperation
  | boundsError
  | emptyStack
  | keyIndexOutOfRange
  | mapConflict
  | stackOverflow
deriving DecidableEq, Repr

/-- An error with the info it carries (R117). -/
inductive CoreError where
  /-- Kind 1: the illegal word. -/
  | decodeError (w : InstrWord)
  /-- Kind 2: the global address no bank covers. -/
  | unmappedAddress (a : Addr)
  /-- Kind 3: the access a bank's capability forbids, the address and the bank's name. -/
  | unsupportedAccess (op : Access) (a : Addr) (bank : String)
  /-- Kind 3: the word of a native call. -/
  | nativeCall (w : InstrWord)
  /-- Kind 4: the address whose offset is past the store, and the bank's name. -/
  | storeBounds (a : Addr) (bank : String)
  /-- Kind 4: the coordinates outside the frame, under the Strict policy. -/
  | frameBounds (x y : Nat)
  /-- Kind 5: pc. -/
  | emptyStack (pc : Addr)
  /-- Kind 6: the key index. -/
  | keyIndexOutOfRange (k : Nat)
  /-- Kind 7: the new bank's name, and the names of every registered bank it overlaps. -/
  | mapConflict (bank : String) (overlapped : List String)
  /-- Kind 8: pc. -/
  | stackOverflow (pc : Addr)
deriving DecidableEq, Repr

/-- The error record (kind and info, pc, w) of R118: w is none when the fetch itself failed. -/
structure ErrorRecord where
  error : CoreError
  pc    : Addr
  word  : Option InstrWord
deriving DecidableEq, Repr

/-- The reasons a step stops with a fault. -/
inductive Fault where
  /-- Raised by `step` alone, when the record of an earlier error stands in `State.fault`: "The model sets `fault`
  to the error record and admits no further tick" (R119, R29, R121). Safe: nothing runs after an error. -/
  | afterError (e : ErrorRecord)
  /-- Raised by `step` alone, when the host has discarded the machine: discard is the host's "last" interaction
  (R135, R106). Safe: nothing runs after a discard. -/
  | afterDiscard
deriving DecidableEq, Repr

/-- The reasons a step refuses an instruction. -/
inductive Refusal where
  /-- An instruction without a meaning: raised by no arm of `exec`, since every instruction has one. Safe. -/
  | notModelled (mnemonic : String)
deriving DecidableEq, Repr

/-! ### The parts of the state -/

/-- The state of one key cell (R23). -/
inductive KeyState where
  | released
  | pressed
  | held
deriving DecidableEq, Repr

/-- The two timers and their hidden bookkeeping (R21, R22). Durations and instants are exact rational seconds
(R127); the instant of reset is 0. -/
structure Timers where
  dt       : Byte
  st       : Byte
  acc      : ℚ
  lastTick : ℚ
deriving DecidableEq, Repr

/-- A video event (R103). The coordinates are those of the pixel that changed. -/
inductive VideoEvent where
  | pixelChanged (x : Fin 64) (y : Fin 32) (on : Bool)
  | cleared
deriving DecidableEq, Repr

/-- A listener object, of which the CORE knows only which one it is (R25, R103). -/
structure Listener where
  object : Nat
deriving DecidableEq, Repr

/-- A callback the video memory makes: setup at attach, teardown at detach, one notification per event and
attached listener (R101 to R106). -/
inductive ListenerCall where
  | setup (l : Listener)
  | teardown (id : Nat)
  | notify (id : Nat) (e : VideoEvent)
deriving DecidableEq, Repr

/-- The video memory (R24, R25, R97): the packed framebuffer, the listeners in registration order, the next id,
and the output of the tick or host operation that ran last: its video events and the callbacks made (R103). -/
structure Video where
  fb        : Vector Byte 256
  listeners : List (Nat × Listener)
  nextId    : Nat
  events    : List VideoEvent
  calls     : List ListenerCall
deriving DecidableEq, Repr

/-- The memory mapper (R26): the registered banks, and the bytes that differ from what their stores were
initialised with, by global address, in canonical form (`Memory.wf`). -/
structure Memory where
  banks : List Bank
  cells : List Host.Cell
deriving DecidableEq, Repr

/-- The model's own bookkeeping of the ELAPSED and RANDOM draws (R8): what the host has queued for the coming
ticks and RND instructions, and how many of each were drawn. A draw takes the head of its queue, and the free value
of that number where the queue is empty (log entries 3, 4). -/
structure Draws where
  elapsedQueue : List Elapsed
  elapsedCount : Nat
  randomQueue  : List Byte
  randomCount  : Nat
deriving DecidableEq, Repr

/-- The whole state of the CORE (10_state.md). -/
structure State where
  /-- V0..VF (R15). -/
  v      : Vector Byte 16
  /-- The index register I (R18). -/
  i      : Addr
  /-- The program counter (R19). -/
  pc     : Addr
  /-- The call stack, top first (R20). -/
  stack  : List Addr
  /-- DT, ST, the accumulator and the instant of the last tick (R21, R22). -/
  timers : Timers
  /-- The 16 key cells (R23). -/
  keys   : Vector KeyState 16
  /-- The framebuffer, the listener registry and the video output (R24, R25, R103). -/
  video  : Video
  /-- The memory mapper (R26). -/
  mem    : Memory
  /-- The first error a tick raised (R29). -/
  fault  : Option ErrorRecord
  /-- The model's own: the host has discarded the machine, which is its last interaction with it (R135, R106; log
  entry 18). -/
  discarded : Bool
  /-- The parameters of R8, fixed for the machine. -/
  config : Config
  /-- The model's own: the draws of R8. -/
  draws  : Draws
deriving DecidableEq, Repr

/-- The state of the machine right after reset, with the default parameters and no program image (R30, R41). -/
def State.reset : State :=
  { v := Vector.replicate 16 0x00#8
    i := 0x0000#16
    pc := pcReset
    stack := []
    timers := { dt := 0x00#8, st := 0x00#8, acc := 0, lastTick := 0 }
    keys := Vector.replicate 16 .released
    video :=
      { fb := Vector.replicate 256 0x00#8, listeners := [], nextId := 0, events := [], calls := [] }
    mem := { banks := defaultMap standardFont, cells := [] }
    fault := none
    discarded := false
    config := Config.default
    draws := { elapsedQueue := [], elapsedCount := 0, randomQueue := [], randomCount := 0 } }

end Sys2Proof.Machine
end

