-- ==== Sys2Proof/Machine/Video.lean ====
section
/-! DEFINITION. The video memory device: packing, coordinates, Get, Set, Flip, Clear, notifications, and the pixels of a sprite (43_display.md R97 to R103, R108, R109). -/

namespace Sys2Proof.Machine

/-- The byte that holds pixel (x, y): y * 8 + x / 8 (R97). -/
def pixelByte (x : Fin 64) (y : Fin 32) : Fin 256 := ⟨y.val * 8 + x.val / 8, by omega⟩

/-- The bit of that byte: 7 − (x mod 8) (R97). -/
def pixelBit (x : Fin 64) : Nat := 7 - x.val % 8

/-- A pixel of the framebuffer (R97, R99). -/
def Video.pixel (d : Video) (x : Fin 64) (y : Fin 32) : Bool := (d.fb[pixelByte x y]).getLsbD (pixelBit x)

/-- A byte with one bit replaced. -/
def putBit (byte : Byte) (k : Nat) (b : Bool) : Byte :=
  if b then byte ||| (1#8 <<< k) else byte &&& ~~~(1#8 <<< k)

/-- The framebuffer with one pixel replaced (R97). -/
def Video.putPixel (d : Video) (x : Fin 64) (y : Fin 32) (b : Bool) : Video :=
  { d with fb := d.fb.set (pixelByte x y) (putBit d.fb[pixelByte x y] (pixelBit x) b) }

/-- An event is output once, and delivered to every attached listener in registration order (R103). -/
def Video.emit (d : Video) (e : VideoEvent) : Video :=
  { d with
    events := d.events ++ [e]
    calls := d.calls ++ d.listeners.map fun l => .notify l.1 e }

/-- The start of a tick or of a video operation of the host: its output is empty so far (R103). -/
def Video.clearOutput (d : Video) : Video := { d with events := [], calls := [] }

/-- `Set(x, y, b)` at a pixel of the frame, with the previous bit (R100). -/
def Video.setPixel (d : Video) (x : Fin 64) (y : Fin 32) (b : Bool) : Video × Bool :=
  ((d.putPixel x y b).emit (.pixelChanged x y b), d.pixel x y)

/-- `Flip(x, y)` at a pixel of the frame, with the previous bit (R101). -/
def Video.flip (d : Video) (x : Fin 64) (y : Fin 32) : Video × Bool := d.setPixel x y (!d.pixel x y)

/-- `Clear()` (R102). -/
def Video.clear (d : Video) : Video := ({ d with fb := Vector.replicate 256 0x00#8 } : Video).emit .cleared

/-- The coordinate policy of get, set and flip (R98). -/
def OobPolicy.locate (p : OobPolicy) (x y : Nat) : Except CoreError (Fin 64 × Fin 32) :=
  match p with
  | .wrap => .ok (Fin.ofNat 64 x, Fin.ofNat 32 y)
  | .strict => if x < 64 ∧ y < 32 then .ok (Fin.ofNat 64 x, Fin.ofNat 32 y) else .error (.frameBounds x y)

/-! ### Sprites -/

/-- The pixels of one sprite row, left to right, bit 7 first (R108, R109). -/
def rowPixels (x0 y0 r : Nat) (row : Byte) : List (Fin 64 × Fin 32) :=
  (List.range 8).filterMap fun c =>
    if row.getLsbD (7 - c) then some (Fin.ofNat 64 (x0 + c), Fin.ofNat 32 (y0 + r)) else none

/-- The pixels of a sprite whose first row is row r, in the order they are flipped: top to bottom (R109). -/
def spritePixels (x0 y0 : Nat) : Nat → List Byte → List (Fin 64 × Fin 32)
  | _, [] => []
  | r, row :: rows => rowPixels x0 y0 r row ++ spritePixels x0 y0 (r + 1) rows

/-- Flip the listed pixels in order; the Bool says whether some flip turned a set pixel off (R109). -/
def Video.flipAll : Video → List (Fin 64 × Fin 32) → Video × Bool
  | d, [] => (d, false)
  | d, p :: ps => (((d.flip p.1 p.2).1.flipAll ps).1, (d.flip p.1 p.2).2 || ((d.flip p.1 p.2).1.flipAll ps).2)

end Sys2Proof.Machine
end

