-- ==== Sys2Proof/Machine/Devices.lean ====
section
/-! DEFINITION. The timers, the input buffer and the draws, and steps 1 and 2 of a tick (60_exceptions.md R125 to R130, 40_cycle_and_control.md R60, 00_scope.md R8). -/

namespace Sys2Proof.Machine

/-! ### Timers (R125, R127) -/

/-- TIMER_PERIOD = 1/60 second (R7, R127). -/
def timerPeriod : ℚ := 1 / 60

/-- The duration an ELAPSED draw stands for, in seconds (R127). -/
def elapsedSeconds (e : Elapsed) : ℚ := (e.num : ℚ) / ((e.denPred : ℚ) + 1)

/-- A counter's decrement, clamped at 0 (R125). -/
def decrement (b : Byte) : Byte := if b = 0x00#8 then 0x00#8 else b - 1

/-- The while loop of R125, at most `fuel` times round. -/
def Timers.loop : Nat → Timers → Timers
  | 0, t => t
  | fuel + 1, t =>
    if timerPeriod ≤ t.acc then
      Timers.loop fuel
        { t with dt := decrement t.dt, st := decrement t.st, acc := t.acc - timerPeriod }
    else t

/-- How many periods an accumulator holds: the times the loop goes round. -/
def periodsIn (acc : ℚ) : Nat := (acc * 60).floor.toNat

/-- `timers_tick(elapsed)` (R125), and the instant of this tick (R22). -/
def Timers.tick (t : Timers) (elapsed : ℚ) : Timers :=
  Timers.loop (periodsIn (t.acc + elapsed))
    { t with acc := t.acc + elapsed, lastTick := t.lastTick + elapsed }

/-! ### Input (R128, R130) -/

/-- `KeyDown(k)`: Pressed or Held (R128). -/
def keyDown (keys : Vector KeyState 16) (k : Fin 16) : Bool :=
  match keys[k] with
  | .released => false
  | .pressed => true
  | .held => true

/-- One cell's debounce (R130). -/
def KeyState.debounce : KeyState → KeyState
  | .released => .released
  | .pressed => .released
  | .held => .held

/-- `input_tick()` (R130). -/
def inputTick (keys : Vector KeyState 16) : Vector KeyState 16 := keys.map KeyState.debounce

/-- The lowest key that is down (R113). -/
def firstKeyDown (keys : Vector KeyState 16) : Option (Fin 16) := (List.finRange 16).find? (keyDown keys)

/-! ### Draws (R8) -/

/-- The ELAPSED draw of the coming tick: what the host queued, else a free value. -/
def Draws.nextElapsed (d : Draws) : Elapsed :=
  match d.elapsedQueue with
  | e :: _ => e
  | [] => Config.elapsedDraw d.elapsedCount

/-- The draws after that draw is taken. -/
def Draws.takeElapsed (d : Draws) : Draws :=
  { d with elapsedQueue := d.elapsedQueue.tail, elapsedCount := d.elapsedCount + 1 }

/-- `draw_random()`: what the host queued, else a free value (R89). -/
def Draws.nextRandom (d : Draws) : Byte :=
  match d.randomQueue with
  | r :: _ => r
  | [] => Config.randomDraw d.randomCount

/-- The draws after that draw is taken. -/
def Draws.takeRandom (d : Draws) : Draws :=
  { d with randomQueue := d.randomQueue.tail, randomCount := d.randomCount + 1 }

/-! ### Steps 1 and 2 of a tick -/

/-- The start of a tick: no output yet (R103), then `timers_tick(elapsed)` and `input_tick()` (R60 steps 1 and 2). -/
def State.beginTick (s : State) : State :=
  { s with
    video := s.video.clearOutput
    timers := s.timers.tick (elapsedSeconds s.draws.nextElapsed)
    keys := inputTick s.keys
    draws := s.draws.takeElapsed }

end Sys2Proof.Machine
end

