-- ==== Sys2Proof/Syntax.lean ====
section
/-! DEFINITION. The 36 instructions, one constructor per row of spec/opcode_table.json, named as the decoder's operations are (30_encoding.md R54, R55, R56). -/

namespace Sys2Proof

/-- A decoded operation with its operands (R56): X and Y are register numbers, NN is a byte, NNN a 12-bit
value, N a nibble. -/
inductive Instr where
  /-- 0000, NOP. -/
  | nop
  /-- 0NNN, SYS nnn. -/
  | nativeCall (nnn : Imm12)
  /-- 00E0, CLS. -/
  | clearScreen
  /-- 00EE, RET. -/
  | ret
  /-- 1NNN, JP nnn. -/
  | jump (nnn : Imm12)
  /-- 2NNN, CALL nnn. -/
  | call (nnn : Imm12)
  /-- 3XNN, SE Vx, nn. -/
  | skipEqImm (x : Reg) (nn : Byte)
  /-- 4XNN, SNE Vx, nn. -/
  | skipNeImm (x : Reg) (nn : Byte)
  /-- 5XY0, SE Vx, Vy. -/
  | skipEqReg (x y : Reg)
  /-- 6XNN, LD Vx, nn. -/
  | assignImm (x : Reg) (nn : Byte)
  /-- 7XNN, ADD Vx, nn. -/
  | addImm (x : Reg) (nn : Byte)
  /-- 8XY0, LD Vx, Vy. -/
  | assign (x y : Reg)
  /-- 8XY1, OR Vx, Vy. -/
  | or (x y : Reg)
  /-- 8XY2, AND Vx, Vy. -/
  | and (x y : Reg)
  /-- 8XY3, XOR Vx, Vy. -/
  | xor (x y : Reg)
  /-- 8XY4, ADD Vx, Vy. -/
  | add (x y : Reg)
  /-- 8XY5, SUB Vx, Vy. -/
  | sub (x y : Reg)
  /-- 8XY6, SHR Vx with the Y field kept. -/
  | shiftRight (x y : Reg)
  /-- 8XY7, SUBN Vx, Vy. -/
  | subReverse (x y : Reg)
  /-- 8XYE, SHL Vx with the Y field kept. -/
  | shiftLeft (x y : Reg)
  /-- 9XY0, SNE Vx, Vy. -/
  | skipNeReg (x y : Reg)
  /-- ANNN, LD I, nnn. -/
  | setIndex (nnn : Imm12)
  /-- BNNN, JP V0, nnn. -/
  | jumpOffset (nnn : Imm12)
  /-- CXNN, RND Vx, nn. -/
  | random (x : Reg) (nn : Byte)
  /-- DXYN, DRW Vx, Vy, n. -/
  | draw (x y n : Fin 16)
  /-- EX9E, SKP Vx. -/
  | skipKeyDown (x : Reg)
  /-- EXA1, SKNP Vx. -/
  | skipKeyUp (x : Reg)
  /-- FX07, LD Vx, DT. -/
  | getDelay (x : Reg)
  /-- FX0A, LD Vx, K. -/
  | waitKey (x : Reg)
  /-- FX15, LD DT, Vx. -/
  | setDelay (x : Reg)
  /-- FX18, LD ST, Vx. -/
  | setSound (x : Reg)
  /-- FX1E, ADD I, Vx. -/
  | addIndex (x : Reg)
  /-- FX29, LD F, Vx. -/
  | fontChar (x : Reg)
  /-- FX33, LD B, Vx. -/
  | bcd (x : Reg)
  /-- FX55, LD [I], Vx. -/
  | storeRegs (x : Reg)
  /-- FX65, LD Vx, [I]. -/
  | loadRegs (x : Reg)
deriving DecidableEq, Repr

end Sys2Proof
end

