-- ==== Sys2Proof/WellFormed.lean ====
section
/-! DEFINITION. Which terms of Instr stand for a word: the field widths are carried by the types (30_encoding.md R56), so the one check left is R55 row 2. -/

namespace Sys2Proof

/-- SYS nnn has no word of its own for NNN = 000, 0E0 and 0EE: those words are NOP, CLS and RET (R55 row 2, R58). -/
def Instr.wellFormed : Instr → Bool
  | .nativeCall nnn => nnn != 0x000#12 && nnn != 0x0E0#12 && nnn != 0x0EE#12
  | .nop | .clearScreen | .ret | .jump _ | .call _ | .skipEqImm _ _ | .skipNeImm _ _ | .skipEqReg _ _
  | .assignImm _ _ | .addImm _ _ | .assign _ _ | .or _ _ | .and _ _ | .xor _ _ | .add _ _ | .sub _ _
  | .shiftRight _ _ | .subReverse _ _ | .shiftLeft _ _ | .skipNeReg _ _ | .setIndex _ | .jumpOffset _
  | .random _ _ | .draw _ _ _ | .skipKeyDown _ | .skipKeyUp _ | .getDelay _ | .waitKey _ | .setDelay _
  | .setSound _ | .addIndex _ | .fontChar _ | .bcd _ | .storeRegs _ | .loadRegs _ => true

end Sys2Proof
end

