-- ==== Sys2Proof/Decode.lean ====
section
/-! DEFINITION. The decoder, total on every word and on any bytes, rejecting by name, and after it the encoder (30_encoding.md R50 to R58). -/

namespace Sys2Proof

/-- Why bytes give no instruction. -/
inductive DecodeError where
  /-- The word is outside the recognised set (R53, R57). Raised as the CORE's DecodeError: safe. -/
  | illegalWord (w : InstrWord)
  /-- Fewer than two bytes were given (R50). No step raises it, since a fetch always reads two bytes: safe. -/
  | truncated
deriving DecidableEq, Repr

/-- The high nibble, w[15:12] (R51). -/
def fieldOp (w : InstrWord) : BitVec 4 := w.extractLsb' 12 4
/-- X = w[11:8] (R52). -/
def fieldX (w : InstrWord) : Reg := (w.extractLsb' 8 4).toFin
/-- Y = w[7:4] (R52). -/
def fieldY (w : InstrWord) : Reg := (w.extractLsb' 4 4).toFin
/-- N = w[3:0] (R52). -/
def fieldN (w : InstrWord) : Fin 16 := (w.extractLsb' 0 4).toFin
/-- NN = w[7:0] (R52). -/
def fieldNN (w : InstrWord) : Byte := w.extractLsb' 0 8
/-- NNN = w[11:0] (R52). -/
def fieldNNN (w : InstrWord) : Imm12 := w.extractLsb' 0 12

/-- The 8XYN family, selected by N (R54). -/
def decodeArith (w : InstrWord) : Except DecodeError Instr :=
  match (fieldN w).val with
  | 0x0 => .ok (.assign (fieldX w) (fieldY w))
  | 0x1 => .ok (.or (fieldX w) (fieldY w))
  | 0x2 => .ok (.and (fieldX w) (fieldY w))
  | 0x3 => .ok (.xor (fieldX w) (fieldY w))
  | 0x4 => .ok (.add (fieldX w) (fieldY w))
  | 0x5 => .ok (.sub (fieldX w) (fieldY w))
  | 0x6 => .ok (.shiftRight (fieldX w) (fieldY w))
  | 0x7 => .ok (.subReverse (fieldX w) (fieldY w))
  | 0xE => .ok (.shiftLeft (fieldX w) (fieldY w))
  | _ => .error (.illegalWord w)

/-- The EXNN family, selected by NN (R54). -/
def decodeKey (w : InstrWord) : Except DecodeError Instr :=
  match (fieldNN w).toNat with
  | 0x9E => .ok (.skipKeyDown (fieldX w))
  | 0xA1 => .ok (.skipKeyUp (fieldX w))
  | _ => .error (.illegalWord w)

/-- The FXNN family, selected by NN (R54). -/
def decodeMisc (w : InstrWord) : Except DecodeError Instr :=
  match (fieldNN w).toNat with
  | 0x07 => .ok (.getDelay (fieldX w))
  | 0x0A => .ok (.waitKey (fieldX w))
  | 0x15 => .ok (.setDelay (fieldX w))
  | 0x18 => .ok (.setSound (fieldX w))
  | 0x1E => .ok (.addIndex (fieldX w))
  | 0x29 => .ok (.fontChar (fieldX w))
  | 0x33 => .ok (.bcd (fieldX w))
  | 0x55 => .ok (.storeRegs (fieldX w))
  | 0x65 => .ok (.loadRegs (fieldX w))
  | _ => .error (.illegalWord w)

/-- The dispatch on the high nibble (R54). -/
def decodeByOp (w : InstrWord) : Except DecodeError Instr :=
  match (fieldOp w).toNat with
  | 0x0 => .ok (.nativeCall (fieldNNN w))
  | 0x1 => .ok (.jump (fieldNNN w))
  | 0x2 => .ok (.call (fieldNNN w))
  | 0x3 => .ok (.skipEqImm (fieldX w) (fieldNN w))
  | 0x4 => .ok (.skipNeImm (fieldX w) (fieldNN w))
  | 0x5 => if fieldN w = 0 then .ok (.skipEqReg (fieldX w) (fieldY w)) else .error (.illegalWord w)
  | 0x6 => .ok (.assignImm (fieldX w) (fieldNN w))
  | 0x7 => .ok (.addImm (fieldX w) (fieldNN w))
  | 0x8 => decodeArith w
  | 0x9 => if fieldN w = 0 then .ok (.skipNeReg (fieldX w) (fieldY w)) else .error (.illegalWord w)
  | 0xA => .ok (.setIndex (fieldNNN w))
  | 0xB => .ok (.jumpOffset (fieldNNN w))
  | 0xC => .ok (.random (fieldX w) (fieldNN w))
  | 0xD => .ok (.draw (fieldX w) (fieldY w) (fieldN w))
  | 0xE => decodeKey w
  | _ => decodeMisc w

/-- `decode(w)`: the whole-word cases, then the high nibble (R53, R54). -/
def decode (w : InstrWord) : Except DecodeError Instr :=
  if w = 0x0000#16 then .ok .nop
  else if w = 0x00E0#16 then .ok .clearScreen
  else if w = 0x00EE#16 then .ok .ret
  else decodeByOp w

/-- The word of two fetched bytes, big-endian (R43). -/
def wordOfBytes (hi lo : Byte) : InstrWord := hi ++ lo

/-- Decode the two bytes at the front of a byte list, and the bytes after them (R50). -/
def decodeBytes : List Byte → Except DecodeError (Instr × List Byte)
  | hi :: lo :: rest => (decode (wordOfBytes hi lo)).map fun i => (i, rest)
  | _ => .error .truncated

/-- The host's question: the instruction the decoder reads from the word `w` of a table row of `nbits` bits. The
hardware has one word per instruction, its high byte at the lower address (R43, R50). -/
def decodeTableWord (nbits w : Nat) : Option Instr :=
  let word : InstrWord := BitVec.ofNat 16 (w % 2 ^ nbits)
  match decodeBytes [word.extractLsb' 8 8, word.extractLsb' 0 8] with
  | .ok (i, _) => some i
  | .error _ => none

/-! ### The encoder, from the patterns of R55 -/

/-- Format A: op, NNN (R51). -/
def fmtA (op : BitVec 4) (nnn : Imm12) : InstrWord := op ++ nnn
/-- Formats XB and XF: op, X, a byte (R51). -/
def fmtXB (op : BitVec 4) (x : Reg) (nn : Byte) : InstrWord := op ++ (BitVec.ofFin x : BitVec 4) ++ nn
/-- Format XYN: op, X, Y, N (R51). -/
def fmtXYN (op : BitVec 4) (x y n : Fin 16) : InstrWord :=
  op ++ (BitVec.ofFin x : BitVec 4) ++ (BitVec.ofFin y : BitVec 4) ++ (BitVec.ofFin n : BitVec 4)

/-- The word of an instruction: the patterns of R55, row by row. -/
def encode : Instr → InstrWord
  | .nop => 0x0000#16
  | .nativeCall nnn => fmtA 0x0#4 nnn
  | .clearScreen => 0x00E0#16
  | .ret => 0x00EE#16
  | .jump nnn => fmtA 0x1#4 nnn
  | .call nnn => fmtA 0x2#4 nnn
  | .skipEqImm x nn => fmtXB 0x3#4 x nn
  | .skipNeImm x nn => fmtXB 0x4#4 x nn
  | .skipEqReg x y => fmtXYN 0x5#4 x y 0x0
  | .assignImm x nn => fmtXB 0x6#4 x nn
  | .addImm x nn => fmtXB 0x7#4 x nn
  | .assign x y => fmtXYN 0x8#4 x y 0x0
  | .or x y => fmtXYN 0x8#4 x y 0x1
  | .and x y => fmtXYN 0x8#4 x y 0x2
  | .xor x y => fmtXYN 0x8#4 x y 0x3
  | .add x y => fmtXYN 0x8#4 x y 0x4
  | .sub x y => fmtXYN 0x8#4 x y 0x5
  | .shiftRight x y => fmtXYN 0x8#4 x y 0x6
  | .subReverse x y => fmtXYN 0x8#4 x y 0x7
  | .shiftLeft x y => fmtXYN 0x8#4 x y 0xE
  | .skipNeReg x y => fmtXYN 0x9#4 x y 0x0
  | .setIndex nnn => fmtA 0xA#4 nnn
  | .jumpOffset nnn => fmtA 0xB#4 nnn
  | .random x nn => fmtXB 0xC#4 x nn
  | .draw x y n => fmtXYN 0xD#4 x y n
  | .skipKeyDown x => fmtXB 0xE#4 x 0x9E#8
  | .skipKeyUp x => fmtXB 0xE#4 x 0xA1#8
  | .getDelay x => fmtXB 0xF#4 x 0x07#8
  | .waitKey x => fmtXB 0xF#4 x 0x0A#8
  | .setDelay x => fmtXB 0xF#4 x 0x15#8
  | .setSound x => fmtXB 0xF#4 x 0x18#8
  | .addIndex x => fmtXB 0xF#4 x 0x1E#8
  | .fontChar x => fmtXB 0xF#4 x 0x29#8
  | .bcd x => fmtXB 0xF#4 x 0x33#8
  | .storeRegs x => fmtXB 0xF#4 x 0x55#8
  | .loadRegs x => fmtXB 0xF#4 x 0x65#8

end Sys2Proof
end

