-- ==== Sys2Proof/Machine/Ops.lean ====
section
/-! DEFINITION. The shared operations: taking an error, the pc, the call stack, the memory mapper (00_scope.md R11, 20_memory.md, 40_cycle_and_control.md R62, R63, 60_exceptions.md R119). -/

namespace Sys2Proof.Machine

/-! ### Error kinds (R117) -/

/-- The kind of an error (R117). -/
def CoreError.kind : CoreError → ErrorKind
  | .decodeError _ => .decodeError
  | .unmappedAddress _ => .unmappedAddress
  | .unsupportedAccess _ _ _ => .unsupportedOperation
  | .nativeCall _ => .unsupportedOperation
  | .storeBounds _ _ => .boundsError
  | .frameBounds _ _ => .boundsError
  | .emptyStack _ => .emptyStack
  | .keyIndexOutOfRange _ => .keyIndexOutOfRange
  | .mapConflict _ _ => .mapConflict
  | .stackOverflow _ => .stackOverflow

/-- The number of a kind (R117). -/
def ErrorKind.code : ErrorKind → Nat
  | .decodeError => 1
  | .unmappedAddress => 2
  | .unsupportedOperation => 3
  | .boundsError => 4
  | .emptyStack => 5
  | .keyIndexOutOfRange => 6
  | .mapConflict => 7
  | .stackOverflow => 8

/-! ### Taking an error

There is no handler, no vector and no return from an error (R121), so nothing stands beside this operation. -/

/-- What an error does (R119): the tick ends in the state reached so far, pc unchanged, with the record (kind and
info, pc, w) of R118 in `fault`. -/
def State.raise (s : State) (w : Option InstrWord) (e : CoreError) : State :=
  { s with fault := some { error := e, pc := s.pc, word := w } }

/-- `raise E(info)` in the rule of the instruction whose word is `w` (R11). -/
def State.fail (s : State) (w : InstrWord) (e : CoreError) : Host.Outcome State Fault Refusal :=
  .next (s.raise (some w) e)

/-! ### The program counter (R62, R63) -/

/-- The default advance: pc ← pc +16 2 (R62). -/
def State.advance (s : State) : State := { s with pc := s.pc + 2 }

/-- The end of a conditional skip: pc ← pc +16 (if skip then 4 else 2) (R60 step 6, R63). -/
def State.skipIf (s : State) (skip : Bool) : State := { s with pc := s.pc + (if skip then 4 else 2) }

/-- pc ← target with the default advance suppressed (R62). -/
def State.jumpTo (s : State) (target : Addr) : State := { s with pc := target }

/-! ### The call stack (R20, R68) -/

/-- Whether a push would pass STACK_LIMIT (R68). -/
def State.stackFull (s : State) : Bool := s.config.stackLimit == some s.stack.length

/-- `push(a)` (R20). -/
def State.push (s : State) (a : Addr) : State := { s with stack := a :: s.stack }

/-! ### Bank routing (R32 to R36) -/

/-- min ≤ a ≤ max (R32, R36). -/
def MemRange.covers (r : MemRange) (a : Addr) : Bool := r.min ≤ a && a ≤ r.max

/-- a1 ≤ b2 and b1 ≤ a2 (R34). -/
def MemRange.overlaps (r q : MemRange) : Bool := r.min ≤ q.max && q.min ≤ r.max

/-- The bank-local offset a − min (R36). -/
def Bank.offset (b : Bank) (a : Addr) : Nat := a.toNat - b.range.min.toNat

/-- The bank whose range contains a (R36). -/
def Memory.find (m : Memory) (a : Addr) : Option Bank := m.banks.find? fun b => b.range.covers a

/-- What an address that `cells` does not list reads as: the initial byte of its bank's store, and 0x00 past the
bytes the store was initialised with or where there is no bank (R33, R41). -/
def Memory.unlisted (m : Memory) (a : Addr) : Byte :=
  match m.find a with
  | some b => b.init.getD (b.offset a) 0x00#8
  | none => 0x00#8

/-! ### The bytes of the stores -/

/-- The byte a cell list gives an address. -/
def cellAt : List Host.Cell → Nat → Option Byte
  | [], _ => none
  | (b, w) :: rest, a => if a = b then some w else cellAt rest a

/-- Put a byte at an address, keeping the addresses rising. -/
def cellPut : List Host.Cell → Nat → Byte → List Host.Cell
  | [], a, v => [(a, v)]
  | (b, w) :: rest, a, v =>
    if a < b then (a, v) :: (b, w) :: rest
    else if a = b then (a, v) :: rest
    else (b, w) :: cellPut rest a v

/-- Remove an address. -/
def cellDrop (cells : List Host.Cell) (a : Nat) : List Host.Cell := cells.filter fun c => c.1 != a

/-- The byte of the store behind an address, with no check. -/
def Memory.peek (m : Memory) (a : Addr) : Byte := (cellAt m.cells a.toNat).getD (m.unlisted a)

/-- Replace the byte of the store behind an address, with no check, keeping the canonical form. -/
def Memory.poke (m : Memory) (a : Addr) (v : Byte) : Memory :=
  { m with
    cells := if v = m.unlisted a then cellDrop m.cells a.toNat else cellPut m.cells a.toNat v }

/-- Whether a bank's store has a byte behind an address (R33, R37). -/
def Memory.backed (m : Memory) (a : Addr) : Bool :=
  match m.find a with
  | some b => b.offset a < b.len
  | none => false

/-- The canonical form: addresses strictly rising, each backed by a store, and no entry equal to what an unlisted
address reads as. -/
abbrev Memory.wf (m : Memory) : Prop :=
  m.cells.Pairwise (fun c d => c.1 < d.1) ∧
  ∀ c ∈ m.cells, c.1 < 65536 ∧ m.backed (BitVec.ofNat 16 c.1) = true ∧ c.2 ≠ m.unlisted (BitVec.ofNat 16 c.1)

/-- "no two banks registered in the same mapper may have overlapping ranges" (R34), and every range has min ≤ max (R32). -/
abbrev Memory.routed (m : Memory) : Prop :=
  m.banks.Pairwise (fun b c => b.range.overlaps c.range = false) ∧
  ∀ b ∈ m.banks, b.range.min ≤ b.range.max

/-! ### One-byte and multi-byte access (R37, R38, R40) -/

/-- `MemRead(a, 1)` (R37). -/
def Memory.read (m : Memory) (a : Addr) : Except CoreError Byte :=
  match m.find a with
  | none => .error (.unmappedAddress a)
  | some b =>
    if b.cap = .writeOnly then .error (.unsupportedAccess .read a b.name)
    else if b.len ≤ b.offset a then .error (.storeBounds a b.name)
    else .ok (m.peek a)

/-- `MemWrite(a, 1, v)` (R38). -/
def Memory.write (m : Memory) (a : Addr) (v : Byte) : Except CoreError Memory :=
  match m.find a with
  | none => .error (.unmappedAddress a)
  | some b =>
    if b.cap = .readOnly then .error (.unsupportedAccess .write a b.name)
    else if b.len ≤ b.offset a then .error (.storeBounds a b.name)
    else .ok (m.poke a v)

/-- A read of n bytes at a, a +16 1, ..., in that order (R40): the bytes read before the first failing access, and
its error. -/
def Memory.readRange (m : Memory) : Addr → Nat → List Byte × Option CoreError
  | _, 0 => ([], none)
  | a, n + 1 =>
    match m.read a with
    | .error e => ([], some e)
    | .ok b => (b :: (m.readRange (a + 1) n).1, (m.readRange (a + 1) n).2)

/-- A write of the listed bytes at a, a +16 1, ..., in that order (R40): the memory with the writes before the first
failing access made, and its error. -/
def Memory.writeRange : Memory → Addr → List Byte → Memory × Option CoreError
  | m, _, [] => (m, none)
  | m, a, v :: vs =>
    match m.write a v with
    | .error e => (m, some e)
    | .ok m' => m'.writeRange (a + 1) vs

/-- `fetch(pc)`: the byte at pc, then the byte at pc +16 1, big-endian (R61, R43). -/
def Memory.fetch (m : Memory) (pc : Addr) : Except CoreError InstrWord :=
  match m.read pc with
  | .error e => .error e
  | .ok hi =>
    match m.read (pc + 1) with
    | .error e => .error e
    | .ok lo => .ok (wordOfBytes hi lo)

end Sys2Proof.Machine
end

