-- ==== Sys2Proof/Machine/Cycle.lean ====
section
/-! DEFINITION. Steps 3 and 4 of a tick, fetch and decode (40_cycle_and_control.md R60, R61), and placing an instruction where the next tick fetches it. -/

namespace Sys2Proof.Machine

/-- The error a decode failure raises (R53, R117 kind 1). A fetch reads two bytes, so `truncated` never comes from it. -/
def decodeErrorRaised (w : InstrWord) : DecodeError → CoreError
  | .illegalWord v => .decodeError v
  | .truncated => .decodeError w

/-- Steps 3 and 4: the fetched word and its operation, or the error with the word, none if the fetch itself failed (R60, R118). -/
def State.fetchDecode (s : State) : Except (CoreError × Option InstrWord) Instr :=
  match s.mem.fetch s.pc with
  | .error e => .error (e, none)
  | .ok w =>
    match decode w with
    | .error d => .error (decodeErrorRaised w d, some w)
    | .ok i => .ok i

/-! ### Placing an instruction -/

/-- A capability that can be read. -/
def Capability.readable : Capability → Capability
  | .readWrite => .readWrite
  | .readOnly => .readOnly
  | .writeOnly => .readWrite

/-- The memory with a store behind an address that can be read: the bank that covers it made readable and long
enough, or a one-byte bank where none covers it. Where the address can be read already, nothing changes. -/
def Memory.expose (m : Memory) (a : Addr) : Memory :=
  match m.find a with
  | none => { m with banks := m.banks ++ [{ name := "placed", range := ⟨a, a⟩, cap := .readWrite, len := 1, init := [] }] }
  | some _ =>
    { m with
      banks := m.banks.map fun b =>
        if b.range.covers a then { b with cap := b.cap.readable, len := max b.len (b.offset a + 1) } else b }

/-- The memory with a byte at an address that can be read. -/
def Memory.place (m : Memory) (a : Addr) (v : Byte) : Memory := (m.expose a).poke a v

/-- The memory with a word at an address, its high byte first (R43). -/
def Memory.placeWord (m : Memory) (a : Addr) (w : InstrWord) : Memory :=
  (m.place a (w.extractLsb' 8 8)).place (a + 1) (w.extractLsb' 0 8)

end Sys2Proof.Machine
end

