-- ==== Sys2Proof/Machine/Flags.lean ====
section
/-! DEFINITION. Every flag computation: the values written to VF (10_state.md R17, 41_arithmetic.md R76, R77, R84 to R88, 43_display.md R109). -/

namespace Sys2Proof.Machine

/-- A flag value as the byte VF receives. -/
def flagByte (b : Bool) : Byte := if b then 0x01#8 else 0x00#8

/-- Carry: 1 if the exact unsigned sum exceeds 0xFF (R84). -/
def carryOut (a b : Byte) : Bool := a.toNat + b.toNat > 0xFF

/-- NOT borrow of a − b: 1 if a ≥ b (R85, R86). -/
def notBorrow (a b : Byte) : Bool := a.toNat ≥ b.toNat

/-- The bit SHR shifts out: bit 0 of the source (R87). -/
def shiftedOutRight (src : Byte) : Bool := src.getLsbD 0

/-- `src << 1`, exact, 9 bits (R88). -/
def shiftLeftExact (src : Byte) : BitVec 9 := src.setWidth 9 <<< 1

/-- The bit SHL shifts out: bit 8 of the exact shift (R88). -/
def shiftedOutLeft (src : Byte) : Bool := (shiftLeftExact src).getLsbD 8

end Sys2Proof.Machine
end

