-- ==== Sys2Proof/Machine/Operands.lean ====
section
/-! DEFINITION. Every operand form: general registers, VF, the shift source, jump targets, the I-relative address, the glyph address, register blocks, decimal digits, key indices (30_encoding.md R52, 42_index_and_memory.md R96). -/

namespace Sys2Proof.Machine

/-- `V[i]` (R11). -/
def State.reg (s : State) (r : Reg) : Byte := s.v[r]

/-- `V[i] <- v` (R11). All 16 registers are writable (R15). -/
def State.setReg (s : State) (r : Reg) (x : Byte) : State := { s with v := s.v.set r x }

/-- `V[0xF] <- flag` (R17). -/
def State.setFlag (s : State) (b : Bool) : State := s.setReg vF (flagByte b)

/-- The source of a shift: V[Y] if SHIFT_USES_VY, else V[X] (R87, R88). -/
def State.shiftSource (s : State) (x y : Reg) : Byte :=
  if s.config.shiftUsesVy then s.reg y else s.reg x

/-- `zext_16(NNN) +16 zext_16(V[0])` (R70). -/
def State.offsetTarget (s : State) (nnn : Imm12) : Addr := zext16 12 nnn + zext16 8 (s.reg 0)

/-- The effective address of every data access, `I +16 k` (R96). -/
def State.indexed (s : State) (k : Nat) : Addr := s.i + BitVec.ofNat 16 k

/-- The glyph address `zext_16(V[X]) * 5`, exact (R92). -/
def glyphAddress (v : Byte) : Addr := BitVec.ofNat 16 (v.toNat * 5)

/-- The hundreds, tens and ones digits (R93). -/
def decimalDigits (v : Byte) : List Byte :=
  [BitVec.ofNat 8 (v.toNat / 100), BitVec.ofNat 8 (v.toNat / 10 % 10), BitVec.ofNat 8 (v.toNat % 10)]

/-- V[0], ..., V[X], inclusive of X (R94). -/
def State.regBlock (s : State) (x : Reg) : List Byte := s.v.toList.take (x.val + 1)

/-- Load bytes into V[k], V[k+1], ... (R95). -/
def State.loadFrom : State → Nat → List Byte → State
  | s, _, [] => s
  | s, k, b :: bs => (s.setReg (Fin.ofNat 16 k) b).loadFrom (k + 1) bs

/-- A key index, 0 to 0xF, else KeyIndexOutOfRange (R111, R112, R129). -/
def keyIndex (k : Nat) : Except CoreError (Fin 16) :=
  if h : k < 16 then .ok ⟨k, h⟩ else .error (.keyIndexOutOfRange k)

end Sys2Proof.Machine
end

