-- ==== Sys2Proof/Machine/Arith.lean ====
section
/-! DEFINITION. Register arithmetic, logic, shifts and random (41_arithmetic.md R76 to R89). Operands are read first, V[X] is written, then VF (R77). -/

namespace Sys2Proof.Machine

/-- LD Vx, nn (R78). -/
def execAssignImm (x : Reg) (nn : Byte) (s : State) : Host.Outcome State Fault Refusal :=
  .next (s.setReg x nn).advance

/-- ADD Vx, nn; VF is not written (R79). -/
def execAddImm (x : Reg) (nn : Byte) (s : State) : Host.Outcome State Fault Refusal :=
  .next (s.setReg x (s.reg x + nn)).advance

/-- LD Vx, Vy (R80). -/
def execAssign (x y : Reg) (s : State) : Host.Outcome State Fault Refusal :=
  .next (s.setReg x (s.reg y)).advance

/-- OR Vx, Vy (R81). -/
def execOr (x y : Reg) (s : State) : Host.Outcome State Fault Refusal :=
  .next (s.setReg x (s.reg x ||| s.reg y)).advance

/-- AND Vx, Vy (R82). -/
def execAnd (x y : Reg) (s : State) : Host.Outcome State Fault Refusal :=
  .next (s.setReg x (s.reg x &&& s.reg y)).advance

/-- XOR Vx, Vy (R83). -/
def execXor (x y : Reg) (s : State) : Host.Outcome State Fault Refusal :=
  .next (s.setReg x (s.reg x ^^^ s.reg y)).advance

/-- ADD Vx, Vy (R84). -/
def execAdd (x y : Reg) (s : State) : Host.Outcome State Fault Refusal :=
  .next ((s.setReg x (s.reg x + s.reg y)).setFlag (carryOut (s.reg x) (s.reg y))).advance

/-- SUB Vx, Vy (R85). -/
def execSub (x y : Reg) (s : State) : Host.Outcome State Fault Refusal :=
  .next ((s.setReg x (s.reg x - s.reg y)).setFlag (notBorrow (s.reg x) (s.reg y))).advance

/-- SUBN Vx, Vy (R86). -/
def execSubReverse (x y : Reg) (s : State) : Host.Outcome State Fault Refusal :=
  .next ((s.setReg x (s.reg y - s.reg x)).setFlag (notBorrow (s.reg y) (s.reg x))).advance

/-- SHR Vx, with Vy under SHIFT_USES_VY (R87). -/
def execShiftRight (x y : Reg) (s : State) : Host.Outcome State Fault Refusal :=
  .next ((s.setReg x (s.shiftSource x y >>> 1)).setFlag (shiftedOutRight (s.shiftSource x y))).advance

/-- SHL Vx, with Vy under SHIFT_USES_VY (R88). -/
def execShiftLeft (x y : Reg) (s : State) : Host.Outcome State Fault Refusal :=
  .next ((s.setReg x ((shiftLeftExact (s.shiftSource x y)).setWidth 8)).setFlag
    (shiftedOutLeft (s.shiftSource x y))).advance

/-- RND Vx, nn (R89). -/
def execRandom (x : Reg) (nn : Byte) (s : State) : Host.Outcome State Fault Refusal :=
  .next (({ s with draws := s.draws.takeRandom } : State).setReg x (s.draws.nextRandom &&& nn)).advance

end Sys2Proof.Machine
end

