-- ==== Sys2Proof/Machine/Control.lean ====
section
/-! DEFINITION. NOP, native call, jumps, CALL, RET and the register skips (40_cycle_and_control.md R65 to R74). -/

namespace Sys2Proof.Machine

/-- NOP (R65). -/
def execNop (s : State) : Host.Outcome State Fault Refusal := .next s.advance

/-- SYS nnn: raises UnsupportedOperation(native_call, w) (R66). -/
def execNativeCall (nnn : Imm12) (s : State) : Host.Outcome State Fault Refusal :=
  s.fail (encode (.nativeCall nnn)) (.nativeCall (encode (.nativeCall nnn)))

/-- JP nnn (R67). -/
def execJump (nnn : Imm12) (s : State) : Host.Outcome State Fault Refusal :=
  .next (s.jumpTo (zext16 12 nnn))

/-- CALL nnn: pushes the address of this CALL (R68). -/
def execCall (nnn : Imm12) (s : State) : Host.Outcome State Fault Refusal :=
  if s.stackFull then s.fail (encode (.call nnn)) (.stackOverflow s.pc)
  else .next ((s.push s.pc).jumpTo (zext16 12 nnn))

/-- RET: pc ← pop(), then the default advance (R69). -/
def execRet (s : State) : Host.Outcome State Fault Refusal :=
  match s.stack with
  | [] => s.fail (encode .ret) (.emptyStack s.pc)
  | a :: rest => .next (({ s with stack := rest } : State).jumpTo a).advance

/-- JP V0, nnn (R70). -/
def execJumpOffset (nnn : Imm12) (s : State) : Host.Outcome State Fault Refusal :=
  .next (s.jumpTo (s.offsetTarget nnn))

/-- SE Vx, nn (R71). -/
def execSkipEqImm (x : Reg) (nn : Byte) (s : State) : Host.Outcome State Fault Refusal :=
  .next (s.skipIf (s.reg x == nn))

/-- SNE Vx, nn (R72). -/
def execSkipNeImm (x : Reg) (nn : Byte) (s : State) : Host.Outcome State Fault Refusal :=
  .next (s.skipIf (s.reg x != nn))

/-- SE Vx, Vy (R73). -/
def execSkipEqReg (x y : Reg) (s : State) : Host.Outcome State Fault Refusal :=
  .next (s.skipIf (s.reg x == s.reg y))

/-- SNE Vx, Vy (R74). -/
def execSkipNeReg (x y : Reg) (s : State) : Host.Outcome State Fault Refusal :=
  .next (s.skipIf (s.reg x != s.reg y))

end Sys2Proof.Machine
end

