-- ==== Sys2Proof/Machine/Display.lean ====
section
/-! DEFINITION. CLS and DRW (43_display.md R107, R109). -/

namespace Sys2Proof.Machine

/-- CLS (R107). -/
def execClearScreen (s : State) : Host.Outcome State Fault Refusal :=
  .next ({ s with video := s.video.clear } : State).advance

/-- DRW Vx, Vy, n: all rows are read first, then the flips, then VF (R109). -/
def execDraw (x y n : Fin 16) (s : State) : Host.Outcome State Fault Refusal :=
  match s.mem.readRange (s.indexed 0) n.val with
  | (_, some e) => s.fail (encode (.draw x y n)) e
  | (rows, none) =>
    .next (({ s with
        video := (s.video.flipAll (spritePixels (s.reg x).toNat (s.reg y).toNat 0 rows)).1 } : State).setFlag
      (s.video.flipAll (spritePixels (s.reg x).toNat (s.reg y).toNat 0 rows)).2).advance

end Sys2Proof.Machine
end

