-- ==== Sys2Proof/Machine/IndexMemory.lean ====
section
/-! DEFINITION. The index register, BCD, and the register block store and load (42_index_and_memory.md R90 to R95). -/

namespace Sys2Proof.Machine

/-- LD I, nnn (R90). -/
def execSetIndex (nnn : Imm12) (s : State) : Host.Outcome State Fault Refusal :=
  .next ({ s with i := zext16 12 nnn } : State).advance

/-- ADD I, Vx; VF is not written (R91). -/
def execAddIndex (x : Reg) (s : State) : Host.Outcome State Fault Refusal :=
  .next ({ s with i := s.i + zext16 8 (s.reg x) } : State).advance

/-- LD F, Vx (R92). -/
def execFontChar (x : Reg) (s : State) : Host.Outcome State Fault Refusal :=
  .next ({ s with i := glyphAddress (s.reg x) } : State).advance

/-- The end of an instruction that wrote a range of memory: the default advance, or the error of the write that
failed, with the writes before it kept (R40, R119). -/
def State.endStore (s : State) (w : InstrWord) (r : Memory × Option CoreError) :
    Host.Outcome State Fault Refusal :=
  match r.2 with
  | none => .next ({ s with mem := r.1 } : State).advance
  | some e => ({ s with mem := r.1 } : State).fail w e

/-- LD B, Vx (R93). -/
def execBcd (x : Reg) (s : State) : Host.Outcome State Fault Refusal :=
  s.endStore (encode (.bcd x)) (s.mem.writeRange (s.indexed 0) (decimalDigits (s.reg x)))

/-- LD [I], Vx (R94). -/
def execStoreRegs (x : Reg) (s : State) : Host.Outcome State Fault Refusal :=
  s.endStore (encode (.storeRegs x)) (s.mem.writeRange (s.indexed 0) (s.regBlock x))

/-- LD Vx, [I]: the registers loaded before a failing read stay loaded (R95). -/
def execLoadRegs (x : Reg) (s : State) : Host.Outcome State Fault Refusal :=
  match s.mem.readRange (s.indexed 0) (x.val + 1) with
  | (bytes, none) => .next (s.loadFrom 0 bytes).advance
  | (bytes, some e) => (s.loadFrom 0 bytes).fail (encode (.loadRegs x)) e

end Sys2Proof.Machine
end

