-- ==== Sys2Proof/Machine/KeysTimers.lean ====
section
/-! DEFINITION. The key and timer instructions (44_input_and_timers.md R111 to R116). -/

namespace Sys2Proof.Machine

/-- SKP Vx (R111). -/
def execSkipKeyDown (x : Reg) (s : State) : Host.Outcome State Fault Refusal :=
  match keyIndex (s.reg x).toNat with
  | .error e => s.fail (encode (.skipKeyDown x)) e
  | .ok k => .next (s.skipIf (keyDown s.keys k))

/-- SKNP Vx (R112). -/
def execSkipKeyUp (x : Reg) (s : State) : Host.Outcome State Fault Refusal :=
  match keyIndex (s.reg x).toNat with
  | .error e => s.fail (encode (.skipKeyUp x)) e
  | .ok k => .next (s.skipIf (!keyDown s.keys k))

/-- LD Vx, K: with no key down nothing changes and pc stays (R113). -/
def execWaitKey (x : Reg) (s : State) : Host.Outcome State Fault Refusal :=
  match firstKeyDown s.keys with
  | some k => .next (s.setReg x (BitVec.ofNat 8 k.val)).advance
  | none => .next s

/-- LD Vx, DT (R114). -/
def execGetDelay (x : Reg) (s : State) : Host.Outcome State Fault Refusal :=
  .next (s.setReg x s.timers.dt).advance

/-- LD DT, Vx; the accumulator is not reset (R115). -/
def execSetDelay (x : Reg) (s : State) : Host.Outcome State Fault Refusal :=
  .next ({ s with timers := { s.timers with dt := s.reg x } } : State).advance

/-- LD ST, Vx (R116). -/
def execSetSound (x : Reg) (s : State) : Host.Outcome State Fault Refusal :=
  .next ({ s with timers := { s.timers with st := s.reg x } } : State).advance

end Sys2Proof.Machine
end

