-- ==== Sys2Proof/Machine/Step.lean ====
section
/-! DEFINITION. One tick, the machine's only step (40_cycle_and_control.md R60). -/

namespace Sys2Proof.Machine

/-- `tick(elapsed)`: no tick is admitted once the machine is discarded (R135) or `fault` is set (R29, R119). Else the
timers and the key debounce advance, then an instruction is fetched, decoded and executed, and an error ends the tick
where it is raised. -/
def step (s : State) : Host.Outcome State Fault Refusal :=
  match s.discarded, s.fault with
  | true, _ => .fault .afterDiscard
  | false, some e => .fault (.afterError e)
  | false, none =>
    match s.beginTick.fetchDecode with
    | .error (e, w) => .next (s.beginTick.raise w e)
    | .ok i => exec i s.beginTick

/-- `s` with the instruction whose bits are `w` where `step` fetches next, no earlier error, and not discarded. -/
def State.withFetchWord (s : State) (nbits w : Nat) : State :=
  { s with
    mem := s.mem.placeWord s.pc (BitVec.ofNat 16 (w % 2 ^ nbits))
    fault := none
    discarded := false }

end Sys2Proof.Machine
end

