-- ==== Sys2Proof/Machine/HostOps.lean ====
section
/-! DEFINITION. What the host does between ticks: keys, listeners, the video memory, the draws (60_exceptions.md R128, R129, R135, 43_display.md R98 to R106, 00_scope.md R8). -/

namespace Sys2Proof.Machine

/-- A host operation (R135). Setup stands in Setup.lean, a tick in Step.lean, and the host observes any field. -/
inductive HostOp where
  | press (k : Nat)
  | hold (k : Nat)
  | release (k : Nat)
  | isDown (k : Nat)
  | attach (l : Listener)
  | detach (id : Nat)
  | get (x y : Nat)
  | set (x y : Nat) (b : Bool)
  | flip (x y : Nat)
  | clear
  | discard
  /-- The model's own: the ELAPSED draws of the coming ticks (R135 "tick"). -/
  | supplyElapsed (es : List Elapsed)
  /-- The model's own: the RANDOM draws of the coming RND instructions (R135 "tick"). -/
  | supplyRandom (rs : List Byte)
deriving DecidableEq, Repr

/-- What the CORE gives back (R135). -/
inductive HostReply where
  | done
  | bit (b : Bool)
  | id (n : Nat)
  | absent
  | error (e : CoreError)
  /-- The machine was discarded earlier: there is none to operate on. -/
  | gone
deriving DecidableEq, Repr

/-- press, hold and release set the cell whatever its previous state; k > 0xF changes nothing (R129). -/
def State.hostKey (s : State) (k : Nat) (c : KeyState) : State × HostReply :=
  match keyIndex k with
  | .error e => (s, .error e)
  | .ok j => ({ s with keys := s.keys.set j c }, .done)

/-- `is_down(k)` (R128). -/
def State.hostIsDown (s : State) (k : Nat) : State × HostReply :=
  match keyIndex k with
  | .error e => (s, .error e)
  | .ok j => (s, .bit (keyDown s.keys j))

/-- `attach(listener)`: the setup callback, then the record under id = nextId (R104). -/
def State.hostAttach (s : State) (l : Listener) : State × HostReply :=
  ({ s with
      video :=
        { s.video with
          listeners := s.video.listeners ++ [(s.video.nextId, l)]
          nextId := s.video.nextId + 1
          events := []
          calls := [.setup l] } }, .id s.video.nextId)

/-- `detach(id)`: the teardown callback, then the removal; an unknown id changes nothing (R105). -/
def State.hostDetach (s : State) (id : Nat) : State × HostReply :=
  if s.video.listeners.any (fun l => l.1 == id) then
    ({ s with
        video :=
          { s.video with
            listeners := s.video.listeners.filter fun l => l.1 != id
            events := []
            calls := [.teardown id] } }, .done)
  else (s, .absent)

/-- Discarding destroys the machine: every remaining listener is detached, in registration order (R106), and no tick
and no host operation follows (R135 "last"). -/
def State.hostDiscard (s : State) : State × HostReply :=
  ({ s with
      discarded := true
      video :=
        { s.video with
          listeners := []
          events := []
          calls := s.video.listeners.map fun l => .teardown l.1 } }, .done)

/-- Get (R98, R99). -/
def State.hostGet (s : State) (x y : Nat) : State × HostReply :=
  match s.config.oobPolicy.locate x y with
  | .error e => (s, .error e)
  | .ok p => (s, .bit (s.video.pixel p.1 p.2))

/-- Set (R98, R100). -/
def State.hostSet (s : State) (x y : Nat) (b : Bool) : State × HostReply :=
  match s.config.oobPolicy.locate x y with
  | .error e => (s, .error e)
  | .ok p =>
    ({ s with video := (s.video.clearOutput.setPixel p.1 p.2 b).1 },
      .bit (s.video.clearOutput.setPixel p.1 p.2 b).2)

/-- Flip (R98, R101). -/
def State.hostFlip (s : State) (x y : Nat) : State × HostReply :=
  match s.config.oobPolicy.locate x y with
  | .error e => (s, .error e)
  | .ok p =>
    ({ s with video := (s.video.clearOutput.flip p.1 p.2).1 }, .bit (s.video.clearOutput.flip p.1 p.2).2)

/-- Clear (R102). -/
def State.hostClear (s : State) : State × HostReply :=
  ({ s with video := s.video.clearOutput.clear }, .done)

/-- One host operation on a machine that is there (R135). -/
def State.serve (s : State) : HostOp → State × HostReply
  | .press k => s.hostKey k .pressed
  | .hold k => s.hostKey k .held
  | .release k => s.hostKey k .released
  | .isDown k => s.hostIsDown k
  | .attach l => s.hostAttach l
  | .detach id => s.hostDetach id
  | .get x y => s.hostGet x y
  | .set x y b => s.hostSet x y b
  | .flip x y => s.hostFlip x y
  | .clear => s.hostClear
  | .discard => s.hostDiscard
  | .supplyElapsed es => ({ s with draws := { s.draws with elapsedQueue := es } }, .done)
  | .supplyRandom rs => ({ s with draws := { s.draws with randomQueue := rs } }, .done)

/-- One host operation between ticks; none is served once the machine is discarded, the "last" of R135. -/
def State.host (s : State) (op : HostOp) : State × HostReply :=
  match s.discarded with
  | true => (s, .gone)
  | false => s.serve op

end Sys2Proof.Machine
end

