-- ==== Sys2Proof/Machine/Setup.lean ====
section
/-! DEFINITION. Setup before the first tick: bank registration, the program image, the creation of a machine (20_memory.md R34, R35, 70_reset_and_hazards.md R137 to R139). -/

namespace Sys2Proof.Machine

/-- Why a machine is not created (R138, R139). -/
inductive SetupReject where
  /-- A bank registration failed with MapConflict (R34, R35); that this ends setup is the model's choice, DESIGN CHOICE,
  log entry 23. -/
  | conflict (e : CoreError)
  /-- The image does not fit the program bank (R139). -/
  | imageTooLong (length room : Nat)
  /-- There is an image, and no bank covers 0x0200 (R139 places its first byte there). -/
  | noProgramBank
deriving DecidableEq, Repr

/-- The registered banks a range overlaps (R34). -/
def Memory.conflicts (m : Memory) (r : MemRange) : List Bank := m.banks.filter fun b => b.range.overlaps r

/-- `add(bank, range, name)` (R34). -/
def Memory.register (m : Memory) (b : Bank) : Except CoreError Memory :=
  match m.conflicts b.range with
  | [] => .ok { m with banks := m.banks ++ [b] }
  | c :: cs => .error (.mapConflict b.name ((c :: cs).map Bank.name))

/-- Register banks in order (R138). The first registration that is rejected ends it: DESIGN CHOICE, log entry 23, since
R34 says only that the mapper keeps the earlier banks. -/
def Memory.registerAll : Memory → List Bank → Except CoreError Memory
  | m, [] => .ok m
  | m, b :: bs =>
    match m.register b with
    | .error e => .error e
    | .ok m' => m'.registerAll bs

/-- Byte bi of an image at a + i (R139). -/
def Memory.fill : Memory → Addr → List Byte → Memory
  | m, _, [] => m
  | m, a, b :: bs => (m.poke a b).fill (a + 1) bs

/-- How many bytes the bank's store has from an address to the end of its range (R139). -/
def Bank.room (b : Bank) (a : Addr) : Nat :=
  min b.len (b.offset b.range.max + 1) - b.offset a

/-- Fill the program bank, the bank at 0x0200, with the image (R139). The rest of that bank is 0x00, as `State.create`
registers it (`Bank.atSetup`). -/
def Memory.loadImage (m : Memory) (image : List Byte) : Except SetupReject Memory :=
  match m.find pcReset with
  | none => if image = [] then .ok m else .error .noProgramBank
  | some b =>
    if image.length ≤ b.room pcReset then .ok (m.fill pcReset image)
    else .error (.imageTooLong image.length (b.room pcReset))

/-- What a bank of MEMORY_MAP is registered with: its own store, but for the program bank, the bank over 0x0200, whose
bytes are all 0x00 before the image is placed, so that it holds "the image then 0x00" (R30, R139; log entry 24). -/
def Bank.atSetup (b : Bank) : Bank :=
  if b.range.covers pcReset then { b with init := [] } else b

/-- Setup in the order of R138: the reset values, the font bank, the other banks of MEMORY_MAP, the image. A rejected
image creates no machine (R139). That a rejected registration creates none either is the model's choice, DESIGN CHOICE,
log entry 23. -/
def State.create (config : Config) (font : List Byte) (banks : List Bank) (image : List Byte) :
    Except SetupReject State :=
  match (({ banks := [], cells := [] } : Memory).registerAll (fontBank font :: banks.map Bank.atSetup)) with
  | .error e => .error (.conflict e)
  | .ok m =>
    match m.loadImage image with
    | .error r => .error r
    | .ok m' => .ok { State.reset with config := config, mem := m' }

end Sys2Proof.Machine
end

