-- ==== Sys2Proof/Safety.lean ====
section
/-! DEFINITION. The terms claims are stated in: the parts of the state and what a step leaves unchanged, the invariant of a safe run, final and reachable states, and the registers an instruction may write. -/

namespace Sys2Proof.Machine

/-! ### Frames -/

/-- A part of the state that a claim can say is kept or changed. -/
inductive Part where
  /-- One general register. -/
  | reg (r : Reg)
  | index
  | pc
  | stack
  /-- DT. -/
  | delay
  /-- ST. -/
  | sound
  /-- The accumulator and the instant of the last tick. -/
  | clock
  | keys
  /-- One pixel of the framebuffer. -/
  | pixel (x : Fin 64) (y : Fin 32)
  /-- The listener registry and its next id. -/
  | listeners
  /-- The video events and callbacks output. -/
  | output
  /-- What a read of one address gives, a byte or an error. -/
  | byte (a : Addr)
  /-- The bank list. -/
  | banks
  | fault
  /-- Whether the host has discarded the machine. -/
  | discarded
  | config
  /-- The model's own bookkeeping of the draws. -/
  | draws
deriving DecidableEq, Repr

/-- The part is the same in both states. -/
def Part.Kept (s t : State) : Part → Prop
  | .reg r => t.reg r = s.reg r
  | .index => t.i = s.i
  | .pc => t.pc = s.pc
  | .stack => t.stack = s.stack
  | .delay => t.timers.dt = s.timers.dt
  | .sound => t.timers.st = s.timers.st
  | .clock => t.timers.acc = s.timers.acc ∧ t.timers.lastTick = s.timers.lastTick
  | .keys => t.keys = s.keys
  | .pixel x y => t.video.pixel x y = s.video.pixel x y
  | .listeners => t.video.listeners = s.video.listeners ∧ t.video.nextId = s.video.nextId
  | .output => t.video.events = s.video.events ∧ t.video.calls = s.video.calls
  | .byte a => t.mem.read a = s.mem.read a
  | .banks => t.mem.banks = s.mem.banks
  | .fault => t.fault = s.fault
  | .discarded => t.discarded = s.discarded
  | .config => t.config = s.config
  | .draws => t.draws = s.draws

/-- Every part of the state but those in the set is the same in both states. -/
def KeepsAllBut (changed : Set Part) (s t : State) : Prop := ∀ p, p ∉ changed → p.Kept s t

/-- The bytes at a, a +16 1, ..., a +16 (n − 1). -/
def bytesAt (a : Addr) (n : Nat) : Set Part := { p | ∃ k, k < n ∧ p = .byte (a + BitVec.ofNat 16 k) }

/-- Every pixel of the framebuffer. -/
def allPixels : Set Part := { p | ∃ x y, p = .pixel x y }

/-! ### What executing an instruction gives -/

/-- The instruction executes: the next state meets `post`, and every part but those in `changed` is as it was. -/
def Completes (i : Instr) (s : State) (changed : Set Part) (post : State → Prop) : Prop :=
  ∃ t, exec i s = .next t ∧ post t ∧ KeepsAllBut changed s t

/-- The instruction raises the error: the record (kind and info, pc, w) stands in `fault` (R118, R119), and every
part but `fault` and those in `changed`, the pc among them, is as it was. -/
def Raises (i : Instr) (s : State) (e : CoreError) (changed : Set Part) (post : State → Prop) : Prop :=
  ∃ t, exec i s = .next t ∧ t.fault = some { error := e, pc := s.pc, word := some (encode i) } ∧ post t ∧
    KeepsAllBut ({.fault} ∪ changed) s t

/-- The byte of a store behind an address, after it was stored: a read gives it where the address can be read. -/
def Holds (s t : State) (a : Addr) (v : Byte) : Prop :=
  t.mem.peek a = v ∧ ∀ old, s.mem.read a = .ok old → t.mem.read a = .ok v

/-- A one-byte write at the address succeeds (R38). -/
def CanWrite (s : State) (a : Addr) : Prop := ∀ v, ∃ m, s.mem.write a v = .ok m

/-- The pixel is one that the sprite flips: a set bit of a row, placed at the start coordinates and wrapped (R109). -/
def InSprite (x0 y0 : Byte) (n : Nat) (rows : Nat → Byte) (px : Fin 64) (py : Fin 32) : Prop :=
  ∃ r < n, ∃ c < 8, (rows r).getLsbD (7 - c) = true ∧ px.val = (x0.toNat + c) % 64 ∧ py.val = (y0.toNat + r) % 32

/-- Two states that differ at most in the listener registry and in the callbacks made. -/
def SameButListeners (s t : State) : Prop :=
  t = { s with
    video :=
      { s.video with listeners := t.video.listeners, nextId := t.video.nextId, calls := t.video.calls } }

/-- Two states that differ at most in ST. -/
def SameButSound (s t : State) : Prop := t = { s with timers := { s.timers with st := t.timers.st } }

/-! ### The registers an instruction may write (10_state.md R16, R17) -/

/-- Whether the instruction writes VF as a flag (R17). -/
def setsFlag : Instr → Bool
  | .add _ _ | .sub _ _ | .subReverse _ _ | .shiftRight _ _ | .shiftLeft _ _ | .draw _ _ _ => true
  | .nop | .nativeCall _ | .clearScreen | .ret | .jump _ | .call _ | .skipEqImm _ _ | .skipNeImm _ _
  | .skipEqReg _ _ | .assignImm _ _ | .addImm _ _ | .assign _ _ | .or _ _ | .and _ _ | .xor _ _
  | .skipNeReg _ _ | .setIndex _ | .jumpOffset _ | .random _ _ | .skipKeyDown _ | .skipKeyUp _
  | .getDelay _ | .waitKey _ | .setDelay _ | .setSound _ | .addIndex _ | .fontChar _ | .bcd _
  | .storeRegs _ | .loadRegs _ => false

/-- Whether the instruction has the register as a destination (R16). -/
def writesReg (r : Reg) : Instr → Bool
  | .assignImm x _ | .addImm x _ | .random x _ => r == x
  | .assign x _ | .or x _ | .and x _ | .xor x _ | .add x _ | .sub x _ | .shiftRight x _
  | .subReverse x _ | .shiftLeft x _ => r == x
  | .getDelay x | .waitKey x => r == x
  | .loadRegs x => r ≤ x
  | .nop | .nativeCall _ | .clearScreen | .ret | .jump _ | .call _ | .skipEqImm _ _ | .skipNeImm _ _
  | .skipEqReg _ _ | .skipNeReg _ _ | .setIndex _ | .jumpOffset _ | .draw _ _ _ | .skipKeyDown _
  | .skipKeyUp _ | .setDelay _ | .setSound _ | .addIndex _ | .fontChar _ | .bcd _ | .storeRegs _ => false

/-! ### The invariant of a safe run -/

/-- What holds of the machine between ticks, whatever program it runs and whatever its host does. -/
structure State.Inv (s : State) : Prop where
  /-- The stores' bytes are in canonical form. -/
  memCanonical : s.mem.wf
  /-- No two banks overlap (R34), so that a route is unique (R36). -/
  banksRouted : s.mem.routed
  /-- After any tick the accumulator is less than a period (R22). -/
  accInPeriod : 0 ≤ s.timers.acc ∧ s.timers.acc < timerPeriod
  /-- The time since reset is a whole number of consumed periods and the accumulator (R126). -/
  clockWhole : ∃ n : ℕ, s.timers.lastTick = n * timerPeriod + s.timers.acc
  /-- The stack is within STACK_LIMIT (R20, R68). -/
  stackWithin : ∀ n, s.config.stackLimit = some n → s.stack.length ≤ n
  /-- Ids rise in registration order and stay below the next id (R104). -/
  idsFresh : s.video.listeners.Pairwise (fun a b => a.1 < b.1) ∧ ∀ l ∈ s.video.listeners, l.1 < s.video.nextId
  /-- An error record names the pc, which the error left unchanged (R118, R119). -/
  faultAtPc : ∀ e, s.fault = some e → e.pc = s.pc
  /-- A discarded machine has no listener left (R106). -/
  discardedBare : s.discarded = true → s.video.listeners = []
  /-- STACK_LIMIT is none or at least 1 (R8). -/
  configWf : s.config.wf

/-- A final state: `fault` is set, or the instruction at pc is a jump to its own address (R136). -/
def State.final (s : State) : Prop :=
  s.fault ≠ none ∨ ∃ nnn, s.fetchDecode = .ok (.jump nnn) ∧ zext16 12 nnn = s.pc

/-- The states a machine can be in between ticks: created by setup, then any ticks and host operations (R135). -/
inductive Reachable : State → Prop where
  | created {config font banks image s} (hc : config.wf) (hb : ∀ b ∈ banks, b.range.min ≤ b.range.max)
      (h : State.create config font banks image = .ok s) : Reachable s
  | ticked {s t} (hs : Reachable s) (h : step s = .next t) : Reachable t
  | served {s} (hs : Reachable s) (op : HostOp) : Reachable (s.host op).1

end Sys2Proof.Machine
end

