-- ==== Sys2Proof/Certificates/Slice0/Obligations.lean ====
section
/-! DEFINITION. The statements for the provers, from the numbered rules of spec/. Each docstring names the rules; where a clause rests on a decision of the spec (92_eei_decisions.md D<n>) or on a log entry, it says so. -/

open Sys2Proof Sys2Proof.Machine

/-! ### Encoding -/

/-- Every well-formed instruction, with every operand its encoding admits, is decoded from its word (R54, R55; opcode
numbers: decision D1). -/
def Obligations.DecodeInvertsEncode : Prop :=
  ∀ i : Instr, i.wellFormed = true → decode (encode i) = .ok i

/-- A word the decoder accepts is the word of the instruction it gives: no bit of it is dropped (R53, R54). -/
def Obligations.EncodeInvertsDecode : Prop :=
  ∀ (w : InstrWord) (i : Instr), decode w = .ok i → i.wellFormed = true ∧ encode i = w

/-- Exactly the words of R57 fail to decode, each with the error that carries it (decisions D1, D2). -/
def Obligations.IllegalWordsAreExactlyThese : Prop :=
  ∀ w : InstrWord,
    (decode w = .error (.illegalWord w) ↔
      (fieldOp w = 0x5#4 ∧ fieldN w ≠ 0) ∨
      (fieldOp w = 0x8#4 ∧ (fieldN w).val ∈ [0x8, 0x9, 0xA, 0xB, 0xC, 0xD, 0xF]) ∨
      (fieldOp w = 0x9#4 ∧ fieldN w ≠ 0) ∨
      (fieldOp w = 0xE#4 ∧ fieldNN w ∉ [0x9E#8, 0xA1#8]) ∨
      (fieldOp w = 0xF#4 ∧ fieldNN w ∉ [0x07#8, 0x0A#8, 0x15#8, 0x18#8, 0x1E#8, 0x29#8, 0x33#8, 0x55#8, 0x65#8])) ∧
    ((∃ i, decode w = .ok i) ∨ decode w = .error (.illegalWord w))

/-- Words written out from the spec's encodings and vectors (95_test_vectors.md S-1 to S-6, V-DEC), one or more of
each family: what they decode to (opcode numbers: decision D1). -/
def Obligations.SpecWordsDecode : Prop :=
  decode 0x0000#16 = .ok .nop ∧ decode 0x00E0#16 = .ok .clearScreen ∧ decode 0x00EE#16 = .ok .ret ∧
  decode 0x00E1#16 = .ok (.nativeCall 0x0E1#12) ∧ decode 0x1234#16 = .ok (.jump 0x234#12) ∧
  decode 0x6A12#16 = .ok (.assignImm 0xA 0x12#8) ∧ decode 0x8AB6#16 = .ok (.shiftRight 0xA 0xB) ∧
  decode 0xD123#16 = .ok (.draw 1 2 3) ∧ decode 0xC3FF#16 = .ok (.random 3 0xFF#8) ∧
  decode 0xEFA1#16 = .ok (.skipKeyUp 0xF) ∧ decode 0xF20A#16 = .ok (.waitKey 2) ∧
  decode 0xFF55#16 = .ok (.storeRegs 0xF) ∧
  decode 0x8009#16 = .error (.illegalWord 0x8009#16) ∧ decode 0xE000#16 = .error (.illegalWord 0xE000#16)

/-! ### The tick -/

/-- When the bytes at pc and pc +16 1 decode to an instruction, the tick of a machine that is not discarded and has
raised no error is: timers, debounce, then the execution of that instruction. Before it executes, exactly one ELAPSED
draw is taken, the output of the last tick is emptied, and of the rest only DT, ST, the clock and the keys have
changed (R60, R61; pc +16 1 wraps by D21; the elapsed time is the draw of R8, log entry 3; that the output of R103
stands in State and starts each tick empty is log entry 9). -/
def Obligations.StepRunsDecodedInstruction : Prop :=
  ∀ (s : State) (hi lo : Byte) (i : Instr), s.discarded = false → s.fault = none → s.mem.read s.pc = .ok hi →
    s.mem.read (s.pc + 1) = .ok lo → decode (hi ++ lo) = .ok i →
    step s = exec i s.beginTick ∧
    s.beginTick.timers = s.timers.tick (elapsedSeconds s.draws.nextElapsed) ∧
    s.beginTick.keys = inputTick s.keys ∧ s.beginTick.video.events = [] ∧ s.beginTick.video.calls = [] ∧
    s.beginTick.draws =
      { s.draws with elapsedQueue := s.draws.elapsedQueue.tail, elapsedCount := s.draws.elapsedCount + 1 } ∧
    KeepsAllBut {.delay, .sound, .clock, .keys, .output, .draws} s s.beginTick

/-- A fetch that fails ends the tick with that error, the byte at pc first, then the byte at pc +16 1; the timers and
the debounce have taken effect, the output is empty, one ELAPSED draw is taken, and nothing else has changed (R61,
R119, R120; decisions D16, D21, D36; log entry 3 for the draw, log entry 9 for the output). -/
def Obligations.FetchErrorEndsTheTick : Prop :=
  ∀ (s : State) (e : CoreError), s.discarded = false → s.fault = none →
    (s.mem.read s.pc = .error e ∨ (∃ hi, s.mem.read s.pc = .ok hi) ∧ s.mem.read (s.pc + 1) = .error e) →
    ∃ t, step s = .next t ∧ t.fault = some { error := e, pc := s.pc, word := none } ∧
      t.timers = s.timers.tick (elapsedSeconds s.draws.nextElapsed) ∧ t.keys = inputTick s.keys ∧
      t.video.events = [] ∧ t.video.calls = [] ∧
      t.draws = { s.draws with elapsedQueue := s.draws.elapsedQueue.tail, elapsedCount := s.draws.elapsedCount + 1 } ∧
      KeepsAllBut {.delay, .sound, .clock, .keys, .output, .draws, .fault} s t

/-- An illegal word ends the tick with DecodeError carrying it; the timers and the debounce have taken effect, the
output is empty, one ELAPSED draw is taken, and nothing else has changed (R53, R57, R119; decision D16; log entry 3
for the draw, log entry 9 for the output). -/
def Obligations.IllegalWordEndsTheTick : Prop :=
  ∀ (s : State) (hi lo : Byte) (d : DecodeError), s.discarded = false → s.fault = none → s.mem.read s.pc = .ok hi →
    s.mem.read (s.pc + 1) = .ok lo → decode (hi ++ lo) = .error d →
    ∃ t, step s = .next t ∧
      t.fault = some { error := .decodeError (hi ++ lo), pc := s.pc, word := some (hi ++ lo) } ∧
      t.timers = s.timers.tick (elapsedSeconds s.draws.nextElapsed) ∧ t.keys = inputTick s.keys ∧
      t.video.events = [] ∧ t.video.calls = [] ∧
      t.draws = { s.draws with elapsedQueue := s.draws.elapsedQueue.tail, elapsedCount := s.draws.elapsedCount + 1 } ∧
      KeepsAllBut {.delay, .sound, .clock, .keys, .output, .draws, .fault} s t

/-- A tick is admitted exactly while the machine is not discarded and `fault` is not set, and then it always gives a
next state, whatever the state: no step refuses, and the faults are the record of an earlier error and an earlier
discard (R29, R119, R121, R135; decision D16; log entries 1 and 18). -/
def Obligations.TickIsAdmittedUntilAnError : Prop :=
  ∀ s : State,
    (s.discarded = false → s.fault = none → ∃ t, step s = .next t) ∧
    (∀ e, s.discarded = false → s.fault = some e → step s = .fault (.afterError e)) ∧
    (s.discarded = true → step s = .fault .afterDiscard)

/-- What an error of an instruction may change: the record names pc and the word, the contents of memory change only for
LD B and LD [I],Vx, the registers only for LD Vx,[I], and pc and everything else never. Which bytes and which registers
these three leave is said by FailedBlockWriteKeepsEarlierBytes and FailedBlockLoadKeepsEarlierRegisters (R118, R119;
decisions D16, D27). -/
def Obligations.ErrorsLeaveOnlyPartialBlocks : Prop :=
  ∀ (i : Instr) (s t : State) (e : ErrorRecord), s.fault = none → exec i s = .next t → t.fault = some e →
    e.pc = s.pc ∧ e.word = some (encode i) ∧ t.pc = s.pc ∧ t.i = s.i ∧ t.stack = s.stack ∧ t.timers = s.timers ∧
    t.keys = s.keys ∧ t.video = s.video ∧ t.mem.banks = s.mem.banks ∧ t.config = s.config ∧ t.draws = s.draws ∧
    t.discarded = s.discarded ∧
    ((∀ x, i ≠ .loadRegs x) → t.v = s.v) ∧ ((∀ x, i ≠ .bcd x ∧ i ≠ .storeRegs x) → t.mem = s.mem)

/-! ### Control transfer -/

/-- NOP: pc +16 2 and nothing else (R65). -/
def Obligations.NopOnlyAdvances : Prop :=
  ∀ s : State, decode 0x0000#16 = .ok .nop ∧ Completes .nop s {.pc} fun t => t.pc = s.pc + 2

/-- SYS nnn: every 0NNN word but the three whole words decodes to it, and it always raises UnsupportedOperation with
the word, changing nothing (R58, R66; decision D3; opcode number: decision D1). -/
def Obligations.NativeCallRaisesUnsupported : Prop :=
  ∀ w : InstrWord, fieldOp w = 0x0#4 → w ≠ 0x0000#16 → w ≠ 0x00E0#16 → w ≠ 0x00EE#16 →
    decode w = .ok (.nativeCall (fieldNNN w)) ∧
    ∀ s : State, Raises (.nativeCall (fieldNNN w)) s (.nativeCall w) ∅ fun _ => True

/-- JP nnn: pc ← NNN, nothing else (R67). -/
def Obligations.JumpSetsPc : Prop :=
  ∀ (nnn : Imm12) (s : State), decode (0x1#4 ++ nnn) = .ok (.jump nnn) ∧
    Completes (.jump nnn) s {.pc} fun t => t.pc.toNat = nnn.toNat

/-- CALL nnn: pushes its own address and jumps, or raises StackOverflow exactly when STACK_LIMIT = some n and n
entries are on the stack (R68; decisions D6, D28; opcode number: decision D1). -/
def Obligations.CallPushesItsOwnAddress : Prop :=
  ∀ (nnn : Imm12) (s : State), decode (0x2#4 ++ nnn) = .ok (.call nnn) ∧
    (s.config.stackLimit ≠ some s.stack.length →
      Completes (.call nnn) s {.pc, .stack} fun t => t.pc.toNat = nnn.toNat ∧ t.stack = s.pc :: s.stack) ∧
    (s.config.stackLimit = some s.stack.length →
      Raises (.call nnn) s (.stackOverflow s.pc) ∅ fun _ => True)

/-- RET: pops the top entry and continues at the word after it; EmptyStack when there is none (R69; decision D28). -/
def Obligations.ReturnPopsAndAdvances : Prop :=
  ∀ s : State, decode 0x00EE#16 = .ok .ret ∧
    (∀ a rest, s.stack = a :: rest →
      Completes .ret s {.pc, .stack} fun t => t.pc = a + 2 ∧ t.stack = rest) ∧
    (s.stack = [] → Raises .ret s (.emptyStack s.pc) ∅ fun _ => True)

/-- A CALL that does not overflow, then a RET: the stack is as before the CALL, pc is at the word after it, and
nothing else has changed (90_conflicts.md C6; decision D28). -/
def Obligations.CallThenReturnResumesAfterTheCall : Prop :=
  ∀ (nnn : Imm12) (s : State), s.config.stackLimit ≠ some s.stack.length →
    ∃ t u, exec (.call nnn) s = .next t ∧ exec .ret t = .next u ∧ u.stack = s.stack ∧ u.pc = s.pc + 2 ∧
      KeepsAllBut {.pc} s u

/-- JP V0, nnn: pc ← NNN + V0, a sum that never wraps; V[X] plays no part (R70; decision D29; opcode number: decision
D1). -/
def Obligations.JumpOffsetAddsV0 : Prop :=
  ∀ (nnn : Imm12) (s : State), decode (0xB#4 ++ nnn) = .ok (.jumpOffset nnn) ∧
    Completes (.jumpOffset nnn) s {.pc} fun t => t.pc.toNat = nnn.toNat + (s.reg 0).toNat

/-- The four register skips: pc +16 4 when the condition holds, else pc +16 2, nothing else; 5XYN and 9XYN with N ≠ 0
are illegal, which is decision D2 (R57; log entry 15) (R71, R72, R73, R74; opcode number: decision D1). -/
def Obligations.RegisterSkips : Prop :=
  ∀ (x y : Reg) (nn : Byte) (s : State),
    (decode (fmtXB 0x3#4 x nn) = .ok (.skipEqImm x nn) ∧
      Completes (.skipEqImm x nn) s {.pc} fun t => t.pc = s.pc + if s.reg x = nn then 4 else 2) ∧
    (decode (fmtXB 0x4#4 x nn) = .ok (.skipNeImm x nn) ∧
      Completes (.skipNeImm x nn) s {.pc} fun t => t.pc = s.pc + if s.reg x = nn then 2 else 4) ∧
    (decode (fmtXYN 0x5#4 x y 0) = .ok (.skipEqReg x y) ∧
      Completes (.skipEqReg x y) s {.pc} fun t => t.pc = s.pc + if s.reg x = s.reg y then 4 else 2) ∧
    (decode (fmtXYN 0x9#4 x y 0) = .ok (.skipNeReg x y) ∧
      Completes (.skipNeReg x y) s {.pc} fun t => t.pc = s.pc + if s.reg x = s.reg y then 2 else 4) ∧
    ∀ n, n ≠ 0 → decode (fmtXYN 0x5#4 x y n) = .error (.illegalWord (fmtXYN 0x5#4 x y n)) ∧
      decode (fmtXYN 0x9#4 x y n) = .error (.illegalWord (fmtXYN 0x9#4 x y n))

/-! ### Arithmetic -/

/-- LD Vx, nn (R78). -/
def Obligations.LoadImmediateWritesVx : Prop :=
  ∀ (x : Reg) (nn : Byte) (s : State), decode (fmtXB 0x6#4 x nn) = .ok (.assignImm x nn) ∧
    Completes (.assignImm x nn) s {.pc, .reg x} fun t => t.reg x = nn ∧ t.pc = s.pc + 2

/-- ADD Vx, nn: modulo 2^8, and VF is not written even on overflow, unless it is the destination (R79; opcode number:
decision D1). -/
def Obligations.AddImmediateWritesNoFlag : Prop :=
  ∀ (x : Reg) (nn : Byte) (s : State), decode (fmtXB 0x7#4 x nn) = .ok (.addImm x nn) ∧
    Completes (.addImm x nn) s {.pc, .reg x} fun t =>
      (t.reg x).toNat = ((s.reg x).toNat + nn.toNat) % 256 ∧ t.pc = s.pc + 2

/-- LD, OR, AND and XOR Vx, Vy, bit by bit; VF is not written unless it is the destination (R80, R81, R82, R83; opcode
number: decision D1). -/
def Obligations.LogicWritesNoFlag : Prop :=
  ∀ (x y : Reg) (s : State),
    (decode (fmtXYN 0x8#4 x y 0) = .ok (.assign x y) ∧
      Completes (.assign x y) s {.pc, .reg x} fun t => t.reg x = s.reg y ∧ t.pc = s.pc + 2) ∧
    (decode (fmtXYN 0x8#4 x y 1) = .ok (.or x y) ∧
      Completes (.or x y) s {.pc, .reg x} fun t => t.pc = s.pc + 2 ∧
        ∀ k, (t.reg x).getLsbD k = ((s.reg x).getLsbD k || (s.reg y).getLsbD k)) ∧
    (decode (fmtXYN 0x8#4 x y 2) = .ok (.and x y) ∧
      Completes (.and x y) s {.pc, .reg x} fun t => t.pc = s.pc + 2 ∧
        ∀ k, (t.reg x).getLsbD k = ((s.reg x).getLsbD k && (s.reg y).getLsbD k)) ∧
    (decode (fmtXYN 0x8#4 x y 3) = .ok (.xor x y) ∧
      Completes (.xor x y) s {.pc, .reg x} fun t => t.pc = s.pc + 2 ∧
        ∀ k, (t.reg x).getLsbD k = ((s.reg x).getLsbD k ^^ (s.reg y).getLsbD k))

/-- ADD Vx, Vy: the sum modulo 2^8, then the carry of the exact sum in VF, which is what VF holds when it is the
destination too (R84; write order: decision D5; opcode number: decision D1). -/
def Obligations.AddWritesSumThenCarry : Prop :=
  ∀ (x y : Reg) (s : State), decode (fmtXYN 0x8#4 x y 4) = .ok (.add x y) ∧
    Completes (.add x y) s {.pc, .reg x, .reg vF} fun t => t.pc = s.pc + 2 ∧
      (x ≠ vF → (t.reg x).toNat = ((s.reg x).toNat + (s.reg y).toNat) % 256) ∧
      (t.reg vF).toNat = ((s.reg x).toNat + (s.reg y).toNat) / 256

/-- SUB and SUBN Vx, Vy: the difference modulo 2^8, then NOT borrow in VF, which is what VF holds when it is the
destination too (R85, R86; write order: decision D5; opcode number: decision D1). -/
def Obligations.SubtractWritesDifferenceThenNotBorrow : Prop :=
  ∀ (x y : Reg) (s : State),
    (decode (fmtXYN 0x8#4 x y 5) = .ok (.sub x y) ∧
      Completes (.sub x y) s {.pc, .reg x, .reg vF} fun t => t.pc = s.pc + 2 ∧
        (x ≠ vF → (t.reg x).toNat = ((s.reg x).toNat + 256 - (s.reg y).toNat) % 256) ∧
        (t.reg vF).toNat = if (s.reg y).toNat ≤ (s.reg x).toNat then 1 else 0) ∧
    (decode (fmtXYN 0x8#4 x y 7) = .ok (.subReverse x y) ∧
      Completes (.subReverse x y) s {.pc, .reg x, .reg vF} fun t => t.pc = s.pc + 2 ∧
        (x ≠ vF → (t.reg x).toNat = ((s.reg y).toNat + 256 - (s.reg x).toNat) % 256) ∧
        (t.reg vF).toNat = if (s.reg x).toNat ≤ (s.reg y).toNat then 1 else 0)

/-- SHR and SHL: halved and doubled modulo 2^8, then the bit shifted out in VF; the source is V[Y] if SHIFT_USES_VY,
else V[X] (R87, R88; decisions D4, D5). -/
def Obligations.ShiftsWriteResultThenBitOut : Prop :=
  ∀ (x y : Reg) (s : State) (src : Byte), src = (if s.config.shiftUsesVy = true then s.reg y else s.reg x) →
    (decode (fmtXYN 0x8#4 x y 6) = .ok (.shiftRight x y) ∧
      Completes (.shiftRight x y) s {.pc, .reg x, .reg vF} fun t => t.pc = s.pc + 2 ∧
        (x ≠ vF → (t.reg x).toNat = src.toNat / 2) ∧ (t.reg vF).toNat = src.toNat % 2) ∧
    (decode (fmtXYN 0x8#4 x y 0xE) = .ok (.shiftLeft x y) ∧
      Completes (.shiftLeft x y) s {.pc, .reg x, .reg vF} fun t => t.pc = s.pc + 2 ∧
        (x ≠ vF → (t.reg x).toNat = src.toNat * 2 % 256) ∧ (t.reg vF).toNat = src.toNat / 128)

/-- RND Vx, nn: the bits of the draw that NN lets through, whatever byte is drawn, and 0 elsewhere; VF is not written
unless it is the destination; exactly one RANDOM draw is taken and no ELAPSED draw. The draw is the model's free value
(R8, R28, R89; decision D17; log entry 4; opcode number: decision D1). -/
def Obligations.RandomMasksTheDraw : Prop :=
  ∀ (x : Reg) (nn : Byte) (s : State), decode (fmtXB 0xC#4 x nn) = .ok (.random x nn) ∧
    Completes (.random x nn) s {.pc, .reg x, .draws} fun t => t.pc = s.pc + 2 ∧
      t.draws = { s.draws with randomQueue := s.draws.randomQueue.tail, randomCount := s.draws.randomCount + 1 } ∧
      ∀ k, (t.reg x).getLsbD k = (nn.getLsbD k && s.draws.nextRandom.getLsbD k)

/-- No instruction changes a register but its destinations, and VF when it sets the flag (R16, R17). -/
def Obligations.RegistersChangeOnlyAsListed : Prop :=
  ∀ (i : Instr) (s t : State) (r : Reg), exec i s = .next t → writesReg r i = false →
    (setsFlag i = true → r ≠ vF) → t.reg r = s.reg r

/-- What no instruction writes but those named: I, the call stack, DT, ST, memory, the screen and its output, the
draws; and what none writes: the clock, the keys, the bank list, the listener registry, the parameters, whether the
machine is discarded (R18, R20, R21, R23, R25, R26, R64). -/
def Obligations.InstructionsWriteOnlyTheirState : Prop :=
  ∀ (i : Instr) (s t : State), exec i s = .next t →
    ((∀ n, i ≠ .setIndex n) → (∀ x, i ≠ .addIndex x) → (∀ x, i ≠ .fontChar x) → t.i = s.i) ∧
    ((∀ n, i ≠ .call n) → i ≠ .ret → t.stack = s.stack) ∧
    ((∀ x, i ≠ .setDelay x) → t.timers.dt = s.timers.dt) ∧
    ((∀ x, i ≠ .setSound x) → t.timers.st = s.timers.st) ∧
    ((∀ x, i ≠ .bcd x) → (∀ x, i ≠ .storeRegs x) → t.mem = s.mem) ∧
    (i ≠ .clearScreen → (∀ x y n, i ≠ .draw x y n) → t.video = s.video) ∧
    ((∀ x nn, i ≠ .random x nn) → t.draws = s.draws) ∧
    t.timers.acc = s.timers.acc ∧ t.timers.lastTick = s.timers.lastTick ∧ t.keys = s.keys ∧
    t.mem.banks = s.mem.banks ∧ t.video.listeners = s.video.listeners ∧ t.video.nextId = s.video.nextId ∧
    t.config = s.config ∧ t.discarded = s.discarded

/-! ### Index register and memory instructions -/

/-- LD I, nnn (R90; opcode number: decision D1). -/
def Obligations.LoadIndexSetsI : Prop :=
  ∀ (nnn : Imm12) (s : State), decode (0xA#4 ++ nnn) = .ok (.setIndex nnn) ∧
    Completes (.setIndex nnn) s {.pc, .index} fun t => t.i.toNat = nnn.toNat ∧ t.pc = s.pc + 2

/-- ADD I, Vx modulo 2^16, and LD F, Vx as five times V[X], unmasked; neither writes VF (R91, R92; decisions D19, D20;
opcode number: decision D1). -/
def Obligations.IndexArithmetic : Prop :=
  ∀ (x : Reg) (s : State),
    (decode (fmtXB 0xF#4 x 0x1E#8) = .ok (.addIndex x) ∧
      Completes (.addIndex x) s {.pc, .index} fun t =>
        t.i.toNat = (s.i.toNat + (s.reg x).toNat) % 65536 ∧ t.pc = s.pc + 2) ∧
    (decode (fmtXB 0xF#4 x 0x29#8) = .ok (.fontChar x) ∧
      Completes (.fontChar x) s {.pc, .index} fun t =>
        t.i.toNat = 5 * (s.reg x).toNat ∧ t.pc = s.pc + 2)

/-- LD B, Vx, where the three bytes can be written: hundreds, tens and ones at I, I +16 1, I +16 2, whose values make
up V[X]; every other byte, I and VF are unchanged (R93; decisions D18, D21; opcode number: decision D1). -/
def Obligations.BcdStoresThreeDigits : Prop :=
  ∀ (x : Reg) (s : State), decode (fmtXB 0xF#4 x 0x33#8) = .ok (.bcd x) ∧
    ((∀ k < 3, CanWrite s (s.i + BitVec.ofNat 16 k)) →
      Completes (.bcd x) s ({.pc} ∪ bytesAt s.i 3) fun t => t.pc = s.pc + 2 ∧
        ∃ h d o : Byte, Holds s t s.i h ∧ Holds s t (s.i + 1) d ∧ Holds s t (s.i + 2) o ∧
          h.toNat ≤ 2 ∧ d.toNat ≤ 9 ∧ o.toNat ≤ 9 ∧
          (s.reg x).toNat = 100 * h.toNat + 10 * d.toNat + o.toNat)

/-- LD [I], Vx, where the bytes can be written: V0..V[X] at I, ..., I +16 X; every other byte and I are unchanged
(R94; decision D18; opcode number: decision D1). -/
def Obligations.StoreRegistersFillsTheBlock : Prop :=
  ∀ (x : Reg) (s : State), decode (fmtXB 0xF#4 x 0x55#8) = .ok (.storeRegs x) ∧
    ((∀ k < x.val + 1, CanWrite s (s.i + BitVec.ofNat 16 k)) →
      Completes (.storeRegs x) s ({.pc} ∪ bytesAt s.i (x.val + 1)) fun t => t.pc = s.pc + 2 ∧
        ∀ k : Reg, k ≤ x → Holds s t (s.i + BitVec.ofNat 16 k.val) (s.reg k))

/-- A block write that fails at its k-th byte: the bytes before it are written, no other byte is, pc does not advance,
and the error is that of the failing address (R40, R93, R94, R119; decisions D16, D21). -/
def Obligations.FailedBlockWriteKeepsEarlierBytes : Prop :=
  ∀ (x : Reg) (s : State) (k : Nat) (e : CoreError), (∀ j < k, CanWrite s (s.i + BitVec.ofNat 16 j)) →
    (∃ v, s.mem.write (s.i + BitVec.ofNat 16 k) v = .error e) →
    (k < x.val + 1 → Raises (.storeRegs x) s e (bytesAt s.i k) fun t =>
      ∀ j : Reg, j.val < k → Holds s t (s.i + BitVec.ofNat 16 j.val) (s.reg j)) ∧
    (k < 3 → Raises (.bcd x) s e (bytesAt s.i k) fun t =>
      (0 < k → Holds s t s.i (BitVec.ofNat 8 ((s.reg x).toNat / 100))) ∧
      (1 < k → Holds s t (s.i + 1) (BitVec.ofNat 8 ((s.reg x).toNat / 10 % 10))))

/-- LD Vx, [I], where the bytes can be read: V0..V[X] hold the bytes at I, ..., I +16 X, and no other register, byte
nor I changes (R95; decision D18; opcode number: decision D1). -/
def Obligations.LoadRegistersReadsTheBlock : Prop :=
  ∀ (x : Reg) (s : State) (b : Nat → Byte), decode (fmtXB 0xF#4 x 0x65#8) = .ok (.loadRegs x) ∧
    ((∀ k < x.val + 1, s.mem.read (s.i + BitVec.ofNat 16 k) = .ok (b k)) →
      Completes (.loadRegs x) s ({.pc} ∪ { p | ∃ r ≤ x, p = .reg r }) fun t => t.pc = s.pc + 2 ∧
        ∀ r : Reg, r ≤ x → t.reg r = b r.val)

/-- A block load that fails at its k-th byte: the registers before V[k] are loaded, no other is, pc does not advance,
and the error is that of the failing address (R40, R95, R119; decision D16). -/
def Obligations.FailedBlockLoadKeepsEarlierRegisters : Prop :=
  ∀ (x : Reg) (s : State) (b : Nat → Byte) (k : Nat) (e : CoreError), k ≤ x.val →
    (∀ j < k, s.mem.read (s.i + BitVec.ofNat 16 j) = .ok (b j)) →
    s.mem.read (s.i + BitVec.ofNat 16 k) = .error e →
    Raises (.loadRegs x) s e { p | ∃ r : Reg, r.val < k ∧ p = .reg r } fun t =>
      ∀ r : Reg, r.val < k → t.reg r = b r.val

/-! ### The memory mapper -/

/-- MemRead through the bank that covers the address, which is the only one where no two banks overlap: the checks in
their order (R36, R37). -/
def Obligations.ReadFollowsTheCoveringBank : Prop :=
  ∀ (m : Memory) (a : Addr), m.routed →
    ((∀ b ∈ m.banks, b.range.covers a = false) → m.read a = .error (.unmappedAddress a)) ∧
    ∀ b ∈ m.banks, b.range.min ≤ a → a ≤ b.range.max →
      (b.cap = .writeOnly → m.read a = .error (.unsupportedAccess .read a b.name)) ∧
      (b.cap ≠ .writeOnly → b.len ≤ a.toNat - b.range.min.toNat → m.read a = .error (.storeBounds a b.name)) ∧
      (b.cap ≠ .writeOnly → a.toNat - b.range.min.toNat < b.len → ∃ v, m.read a = .ok v)

/-- MemWrite through the bank that covers the address: the checks in their order; and after a write that succeeds, the
address reads as the byte written if its bank can be read, and every other address reads as before (R36, R38). -/
def Obligations.WriteFollowsTheCoveringBank : Prop :=
  ∀ (m : Memory) (a : Addr) (v : Byte), m.routed →
    ((∀ b ∈ m.banks, b.range.covers a = false) → m.write a v = .error (.unmappedAddress a)) ∧
    ∀ b ∈ m.banks, b.range.min ≤ a → a ≤ b.range.max →
      (b.cap = .readOnly → m.write a v = .error (.unsupportedAccess .write a b.name)) ∧
      (b.cap ≠ .readOnly → b.len ≤ a.toNat - b.range.min.toNat → m.write a v = .error (.storeBounds a b.name)) ∧
      (b.cap ≠ .readOnly → a.toNat - b.range.min.toNat < b.len → ∃ m', m.write a v = .ok m' ∧
        (b.cap ≠ .writeOnly → m'.read a = .ok v) ∧ (∀ c, c ≠ a → m'.read c = m.read c) ∧ m'.banks = m.banks)

/-- The default map, whatever FONT it holds and whatever was written: the font is readable and not writable, the
program bank is both, and every other address is unmapped (R41; decision D13). -/
def Obligations.DefaultMapRoutes : Prop :=
  ∀ (font : List Byte) (cells : List Host.Cell) (a : Addr) (v : Byte),
    (a.toNat ≤ 0x004F →
      (∃ b, Memory.read ⟨defaultMap font, cells⟩ a = .ok b) ∧
      Memory.write ⟨defaultMap font, cells⟩ a v = .error (.unsupportedAccess .write a "font")) ∧
    (0x0200 ≤ a.toNat → a.toNat ≤ 0x0FFF →
      (∃ b, Memory.read ⟨defaultMap font, cells⟩ a = .ok b) ∧
      ∃ m, Memory.write ⟨defaultMap font, cells⟩ a v = .ok m) ∧
    ((0x0050 ≤ a.toNat ∧ a.toNat ≤ 0x01FF) ∨ 0x1000 ≤ a.toNat →
      Memory.read ⟨defaultMap font, cells⟩ a = .error (.unmappedAddress a) ∧
      Memory.write ⟨defaultMap font, cells⟩ a v = .error (.unmappedAddress a))

/-- Registration: accepted exactly when the new range shares no address with a registered bank's, and else rejected
with the new bank's name and exactly the names of the banks it overlaps (R34). -/
def Obligations.RegistrationRejectsOverlap : Prop :=
  ∀ (m : Memory) (b : Bank), b.range.min ≤ b.range.max → (∀ k ∈ m.banks, k.range.min ≤ k.range.max) →
    ((∀ k ∈ m.banks, ∀ a, ¬(k.range.covers a = true ∧ b.range.covers a = true)) →
      m.register b = .ok { m with banks := m.banks ++ [b] }) ∧
    ((∃ k ∈ m.banks, ∃ a, k.range.covers a = true ∧ b.range.covers a = true) →
      ∃ names, m.register b = .error (.mapConflict b.name names) ∧
        ∀ nm, nm ∈ names ↔ ∃ k ∈ m.banks, k.name = nm ∧ ∃ a, k.range.covers a = true ∧ b.range.covers a = true)

/-- Setup with the default map: an image of at most 3584 bytes gives a machine at the reset values of R30 whose byte
0x0200 + i is the image's, the rest of the program bank 0x00 and the font bank FONT; a longer one gives none. Whatever
the other banks and their initial bytes, the store of the bank over 0x0200 holds the image from there and 0x00
elsewhere, and every other store its initial bytes, 0x00 past those (R30, R33, R42, R137, R138, R139; decisions D12,
D13, D34; that the bank over 0x0200 is the program bank of another MEMORY_MAP is log entry 12, and that its initial
bytes are not used log entry 24). Of the reset values, lastTick = 0 is how the model keeps the reset
instant (decision D10, log entry 10), nextId = 0 is decision D26, and that a new machine is not discarded is log entry
18. -/
def Obligations.SetupPlacesTheImage : Prop :=
  ∀ (config : Config) (font image : List Byte),
    (image.length ≤ 3584 →
      ∃ s, State.create config font [programBank] image = .ok s ∧ s.pc = 0x0200#16 ∧ (∀ r, s.reg r = 0) ∧
        s.i = 0 ∧ s.stack = [] ∧ s.timers.dt = 0 ∧ s.timers.st = 0 ∧ s.timers.acc = 0 ∧ s.timers.lastTick = 0 ∧
        (∀ k : Fin 16, s.keys[k] = .released) ∧ (∀ x y, s.video.pixel x y = false) ∧ s.video.listeners = [] ∧
        s.video.nextId = 0 ∧ s.fault = none ∧ s.discarded = false ∧ s.config = config ∧
        (∀ k < 3584, s.mem.read (0x0200#16 + BitVec.ofNat 16 k) = .ok (image.getD k 0x00#8)) ∧
        ∀ k < 80, s.mem.read (BitVec.ofNat 16 k) = .ok (font.getD k 0x00#8)) ∧
    (3584 < image.length → ∃ r, State.create config font [programBank] image = .error r) ∧
    ∀ (banks : List Bank) (s : State), (∀ b ∈ banks, b.range.min ≤ b.range.max) →
      State.create config font banks image = .ok s →
      ∀ b ∈ banks, ∀ a, b.range.covers a = true → a.toNat - b.range.min.toNat < b.len →
        (b.range.covers 0x0200#16 = true →
          s.mem.peek a = if a.toNat < 0x0200 then 0x00#8 else image.getD (a.toNat - 0x0200) 0x00#8) ∧
        (b.range.covers 0x0200#16 = false → s.mem.peek a = b.init.getD (a.toNat - b.range.min.toNat) 0x00#8)

/-! ### Display -/

/-- CLS: every pixel 0 and one Cleared notification to each listener in registration order, even on a clear screen
(R102, R107). That the events and the callbacks stand in State, after those made before, is the model's choice of log
entry 9. -/
def Obligations.ClearScreenZeroesEveryPixel : Prop :=
  ∀ s : State, decode 0x00E0#16 = .ok .clearScreen ∧
    Completes .clearScreen s ({.pc, .output} ∪ allPixels) fun t => t.pc = s.pc + 2 ∧
      (∀ x y, t.video.pixel x y = false) ∧ t.video.events = s.video.events ++ [.cleared] ∧
      t.video.calls = s.video.calls ++ s.video.listeners.map fun l => .notify l.1 .cleared

/-- DRW where the rows can be read: exactly the sprite's pixels are inverted, VF is 1 if one of them was set and else
0 (for a height of 0 too), and nothing else changes but the output (R109; decisions D15, D22, D23; opcode number:
decision D1). -/
def Obligations.DrawXorsTheSprite : Prop :=
  ∀ (x y n : Fin 16) (s : State) (rows : Nat → Byte), decode (fmtXYN 0xD#4 x y n) = .ok (.draw x y n) ∧
    ((∀ r < n.val, s.mem.read (s.i + BitVec.ofNat 16 r) = .ok (rows r)) →
      Completes (.draw x y n) s ({.pc, .output, .reg vF} ∪ allPixels) fun t => t.pc = s.pc + 2 ∧
        (∀ px py, InSprite (s.reg x) (s.reg y) n.val rows px py → t.video.pixel px py = !s.video.pixel px py) ∧
        (∀ px py, ¬InSprite (s.reg x) (s.reg y) n.val rows px py → t.video.pixel px py = s.video.pixel px py) ∧
        ((∃ px py, InSprite (s.reg x) (s.reg y) n.val rows px py ∧ s.video.pixel px py = true) →
          t.reg vF = 1) ∧
        (¬(∃ px py, InSprite (s.reg x) (s.reg y) n.val rows px py ∧ s.video.pixel px py = true) →
          t.reg vF = 0))

/-- DRW sends one PixelChanged event per flip, rows top to bottom and bits 7 to 0, with the pixel's new value, each to
every listener in registration order (R101, R103, R109; decisions D15, D23; the output stands in State by log entry 9). -/
def Obligations.DrawReportsEveryFlipInOrder : Prop :=
  ∀ (x y n : Fin 16) (s t : State) (rows : Nat → Byte),
    (∀ r < n.val, s.mem.read (s.i + BitVec.ofNat 16 r) = .ok (rows r)) → exec (.draw x y n) s = .next t →
    ∃ es : List VideoEvent,
      es = ((List.range n.val).flatMap fun r => (List.range 8).filterMap fun c =>
        if (rows r).getLsbD (7 - c) = true then
          some (.pixelChanged (Fin.ofNat 64 ((s.reg x).toNat + c)) (Fin.ofNat 32 ((s.reg y).toNat + r))
            (!s.video.pixel (Fin.ofNat 64 ((s.reg x).toNat + c)) (Fin.ofNat 32 ((s.reg y).toNat + r))))
        else none) ∧
      t.video.events = s.video.events ++ es ∧
      t.video.calls = s.video.calls ++ es.flatMap fun e => s.video.listeners.map fun l => .notify l.1 e

/-- DRW whose row read fails: the error of the lowest failing row, and nothing else (R109, R120; decisions D16, D23).
-/
def Obligations.FailedDrawChangesNothing : Prop :=
  ∀ (x y n : Fin 16) (s : State) (k : Nat) (e : CoreError), k < n.val →
    (∀ j < k, ∃ v, s.mem.read (s.i + BitVec.ofNat 16 j) = .ok v) →
    s.mem.read (s.i + BitVec.ofNat 16 k) = .error e →
    Raises (.draw x y n) s e ∅ fun _ => True

/-- Drawing the same sprite at the same place again restores every pixel, and reports a collision exactly when some
pixel of the sprite was off before the first draw (95_test_vectors.md S-12). -/
def Obligations.DrawingTwiceRestoresTheScreen : Prop :=
  ∀ (x y n : Fin 16) (s t u : State) (rows : Nat → Byte),
    (∀ r < n.val, s.mem.read (s.i + BitVec.ofNat 16 r) = .ok (rows r)) →
    exec (.draw x y n) s = .next t → t.reg x = s.reg x → t.reg y = s.reg y → exec (.draw x y n) t = .next u →
    (∀ px py, u.video.pixel px py = s.video.pixel px py) ∧
    ((∃ px py, InSprite (s.reg x) (s.reg y) n.val rows px py ∧ s.video.pixel px py = false) ↔ u.reg vF = 1)

/-- Get, Set, Flip and Clear by the host, on a machine that is not discarded: coordinates wrap under Wrap; under
Strict a pixel outside the frame is a BoundsError that changes nothing. Get changes nothing; Set and Flip return the
previous bit, notify every listener and change no other pixel; Clear zeroes every pixel and notifies every listener
(R98 to R102; decisions D7, D37). That an event carries the reduced coordinates, and that the output holds this
operation's alone, is the model's choice of log entry 9. -/
def Obligations.HostPixelOperations : Prop :=
  ∀ (s : State) (x y : Nat) (b : Bool) (px : Fin 64) (py : Fin 32), s.discarded = false → px.val = x % 64 → py.val = y % 32 →
    (s.config.oobPolicy = .wrap ∨ x < 64 ∧ y < 32 →
      s.host (.get x y) = (s, .bit (s.video.pixel px py)) ∧
      (s.host (.set x y b)).2 = .bit (s.video.pixel px py) ∧
      (s.host (.flip x y)).2 = .bit (s.video.pixel px py) ∧
      (s.host (.set x y b)).1.video.pixel px py = b ∧
      (s.host (.flip x y)).1.video.pixel px py = !s.video.pixel px py ∧
      (s.host (.set x y b)).1.video.events = [.pixelChanged px py b] ∧
      (s.host (.set x y b)).1.video.calls = s.video.listeners.map (fun l => .notify l.1 (.pixelChanged px py b)) ∧
      (s.host (.flip x y)).1.video.events = [.pixelChanged px py (!s.video.pixel px py)] ∧
      (s.host (.flip x y)).1.video.calls =
        s.video.listeners.map (fun l => .notify l.1 (.pixelChanged px py (!s.video.pixel px py))) ∧
      KeepsAllBut {.output, .pixel px py} s (s.host (.set x y b)).1 ∧
      KeepsAllBut {.output, .pixel px py} s (s.host (.flip x y)).1) ∧
    (s.config.oobPolicy = .strict → ¬(x < 64 ∧ y < 32) →
      s.host (.get x y) = (s, .error (.frameBounds x y)) ∧
      s.host (.set x y b) = (s, .error (.frameBounds x y)) ∧
      s.host (.flip x y) = (s, .error (.frameBounds x y))) ∧
    ((s.host .clear).2 = .done ∧ (∀ qx qy, (s.host .clear).1.video.pixel qx qy = false) ∧
      (s.host .clear).1.video.events = [.cleared] ∧
      (s.host .clear).1.video.calls = s.video.listeners.map (fun l => .notify l.1 .cleared) ∧
      KeepsAllBut ({.output} ∪ allPixels) s (s.host .clear).1)

/-- On a machine that is not discarded: attach hands out the next id, which no attached listener has, makes the setup
callback and records the listener; detach makes the teardown callback and removes that listener alone, and leaves the
next id; an unknown id is absent and changes nothing; discarding makes the teardown callback of every remaining
listener, in registration order, and removes them, and it is last: after it no tick and no host operation runs (R104,
R105, R106, R135; decision D26). That the output holds this operation's callbacks alone is the model's choice of log
entry 9, that a discarded machine stays as a state which nothing runs on is log entry 18. -/
def Obligations.ListenerIdsAreFresh : Prop :=
  ∀ (s : State) (l : Listener) (id : Nat), s.Inv → s.discarded = false →
    ((s.host (.attach l)).2 = .id s.video.nextId ∧ (∀ q ∈ s.video.listeners, q.1 ≠ s.video.nextId) ∧
      (s.host (.attach l)).1.video.listeners = s.video.listeners ++ [(s.video.nextId, l)] ∧
      (s.host (.attach l)).1.video.nextId = s.video.nextId + 1 ∧
      (s.host (.attach l)).1.video.calls = [.setup l] ∧
      KeepsAllBut {.listeners, .output} s (s.host (.attach l)).1) ∧
    ((∃ q ∈ s.video.listeners, q.1 = id) →
      (s.host (.detach id)).2 = .done ∧ (s.host (.detach id)).1.video.calls = [.teardown id] ∧
      (s.host (.detach id)).1.video.nextId = s.video.nextId ∧
      (∀ q, q ∈ (s.host (.detach id)).1.video.listeners ↔ q ∈ s.video.listeners ∧ q.1 ≠ id) ∧
      KeepsAllBut {.listeners, .output} s (s.host (.detach id)).1) ∧
    ((∀ q ∈ s.video.listeners, q.1 ≠ id) → s.host (.detach id) = (s, .absent)) ∧
    ((s.host .discard).1.video.listeners = [] ∧
      (s.host .discard).1.video.calls = s.video.listeners.map (fun l => .teardown l.1) ∧
      KeepsAllBut {.listeners, .output, .discarded} s (s.host .discard).1 ∧
      step (s.host .discard).1 = .fault .afterDiscard ∧
      ∀ op, (s.host .discard).1.host op = ((s.host .discard).1, .gone))

/-- Listeners cannot reach the machine: two states that differ only in the listener registry and the callbacks made
take the same tick but for these (R103; decision D38; log entries 9, 11). -/
def Obligations.ListenersDoNotAffectTheCore : Prop :=
  ∀ s s' : State, SameButListeners s s' →
    (∀ t, step s = .next t → ∃ t', step s' = .next t' ∧ SameButListeners t t') ∧
    (∀ f, step s = .fault f → step s' = .fault f)

/-! ### Keys and timers -/

/-- SKP and SKNP: with V[X] ≤ 0xF, pc +16 4 when the key is down (up), else pc +16 2; with V[X] > 0xF,
KeyIndexOutOfRange. Nothing else changes (R111, R112; opcode number: decision D1). -/
def Obligations.KeySkips : Prop :=
  ∀ (x : Reg) (s : State),
    decode (fmtXB 0xE#4 x 0x9E#8) = .ok (.skipKeyDown x) ∧ decode (fmtXB 0xE#4 x 0xA1#8) = .ok (.skipKeyUp x) ∧
    (∀ k : Fin 16, (s.reg x).toNat = k.val →
      (Completes (.skipKeyDown x) s {.pc} fun t => t.pc = s.pc + if s.keys[k] ≠ .released then 4 else 2) ∧
      (Completes (.skipKeyUp x) s {.pc} fun t => t.pc = s.pc + if s.keys[k] ≠ .released then 2 else 4)) ∧
    (0xF < (s.reg x).toNat →
      Raises (.skipKeyDown x) s (.keyIndexOutOfRange (s.reg x).toNat) ∅ (fun _ => True) ∧
      Raises (.skipKeyUp x) s (.keyIndexOutOfRange (s.reg x).toNat) ∅ (fun _ => True))

/-- LD Vx, K: with a key down, the lowest goes to V[X] and pc advances; with none, the tick changes nothing, pc
included (R113; decision D9; opcode number: decision D1). -/
def Obligations.WaitKeyTakesTheLowestKey : Prop :=
  ∀ (x : Reg) (s : State), decode (fmtXB 0xF#4 x 0x0A#8) = .ok (.waitKey x) ∧
    (∀ k : Fin 16, s.keys[k] ≠ .released → (∀ j : Fin 16, j < k → s.keys[j] = .released) →
      Completes (.waitKey x) s {.pc, .reg x} fun t => (t.reg x).toNat = k.val ∧ t.pc = s.pc + 2) ∧
    ((∀ k : Fin 16, s.keys[k] = .released) → exec (.waitKey x) s = .next s)

/-- LD Vx, DT; LD DT, Vx, which does not reset the accumulator; LD ST, Vx (R114, R115, R116; decisions D32, D35;
opcode number: decision D1). -/
def Obligations.TimerTransfers : Prop :=
  ∀ (x : Reg) (s : State),
    (decode (fmtXB 0xF#4 x 0x07#8) = .ok (.getDelay x) ∧
      Completes (.getDelay x) s {.pc, .reg x} fun t => t.reg x = s.timers.dt ∧ t.pc = s.pc + 2) ∧
    (decode (fmtXB 0xF#4 x 0x15#8) = .ok (.setDelay x) ∧
      Completes (.setDelay x) s {.pc, .delay} fun t => t.timers.dt = s.reg x ∧ t.pc = s.pc + 2) ∧
    (decode (fmtXB 0xF#4 x 0x18#8) = .ok (.setSound x) ∧
      Completes (.setSound x) s {.pc, .sound} fun t => t.timers.st = s.reg x ∧ t.pc = s.pc + 2)

/-- The debounce: after any tick, and already when its instruction runs, a Held cell is Held, and every other cell
Released, so no instruction sees a Pressed cell (R110, R130). -/
def Obligations.DebounceReleasesPressedKeys : Prop :=
  ∀ s t : State, step s = .next t → ∀ k : Fin 16,
    s.beginTick.keys[k] = t.keys[k] ∧ (s.keys[k] = .held → t.keys[k] = .held) ∧
    (s.keys[k] ≠ .held → t.keys[k] = .released)

/-- press, hold and release set one cell whatever its state, is_down is true exactly for Pressed and Held; an index
above 0xF is KeyIndexOutOfRange and changes nothing, on a machine that is not discarded (R128, R129). -/
def Obligations.HostKeyOperations : Prop :=
  ∀ (s : State) (k : Nat), s.discarded = false →
    (∀ j : Fin 16, j.val = k →
      ∀ p ∈ [(HostOp.press k, KeyState.pressed), (HostOp.hold k, KeyState.held), (HostOp.release k, KeyState.released)],
        (s.host p.1).2 = .done ∧ (s.host p.1).1.keys[j] = p.2 ∧
        (∀ q : Fin 16, q ≠ j → (s.host p.1).1.keys[q] = s.keys[q]) ∧ KeepsAllBut {.keys} s (s.host p.1).1 ∧
        s.host (.isDown k) = (s, .bit (decide (s.keys[j] = .pressed ∨ s.keys[j] = .held)))) ∧
    (0xF < k → ∀ op ∈ [HostOp.press k, HostOp.hold k, HostOp.release k, HostOp.isDown k],
      s.host op = (s, .error (.keyIndexOutOfRange k)))

/-- The timer step in closed form: with n the whole periods in the accumulator and the elapsed time, DT and ST fall by
n and stop at 0, and n periods leave the accumulator, which ends below one (R22, R125; decisions D11, D35). -/
def Obligations.TimerStepConsumesWholePeriods : Prop :=
  ∀ (t : Timers) (e : ℚ), 0 ≤ t.acc → 0 ≤ e →
    ∃ n : ℕ, (n : ℚ) / 60 ≤ t.acc + e ∧ t.acc + e < ((n : ℚ) + 1) / 60 ∧
      (t.tick e).dt.toNat = t.dt.toNat - n ∧ (t.tick e).st.toNat = t.st.toNat - n ∧
      (t.tick e).acc = t.acc + e - n / 60 ∧ (t.tick e).lastTick = t.lastTick + e

/-- The timer rate: however a time is divided among ticks, the counters and the accumulator end the same (R126). -/
def Obligations.TimerRateIsIndependentOfPacing : Prop :=
  ∀ (es : List ℚ) (t : Timers), 0 ≤ t.acc → t.acc < timerPeriod → (∀ e ∈ es, 0 ≤ e) →
    es.foldl Timers.tick t = t.tick es.sum

/-- ST is read by no instruction and drives nothing: two states that differ only in ST take ticks to states that
differ only in ST (R21, R116; decision D32). -/
def Obligations.SoundTimerIsUnobservable : Prop :=
  ∀ s s' : State, SameButSound s s' →
    (∀ t, step s = .next t → ∃ t', step s' = .next t' ∧ SameButSound t t') ∧
    (∀ f, step s = .fault f → step s' = .fault f)

/-! ### Invariants and runs -/

/-- The reset state is safe. Its values other than pc are decisions of the spec (R30; decision D12). -/
def Obligations.ResetIsSafe : Prop := State.reset.Inv

/-- Every tick from a safe state gives a safe state, whatever is drawn and whatever instruction runs (R20, R22, R34,
R68, R104, R106, R118, R119, R126). -/
def Obligations.StepKeepsTheInvariant : Prop :=
  ∀ s t : State, s.Inv → step s = .next t → t.Inv

/-- Every host operation between ticks keeps the machine safe (R128, R129, R98 to R106). -/
def Obligations.HostOperationsKeepTheInvariant : Prop :=
  ∀ (s : State) (op : HostOp), s.Inv → (s.host op).1.Inv

/-- A machine that setup creates is safe, whatever its parameters, banks, font and image, and none of its other banks
overlaps the font's addresses 0x0000..0x004F (R34, R35, R138, R139; decision D13). That setup creates no machine from
a list in which a bank is rejected is the model's choice of log entry 23. -/
def Obligations.SetupGivesASafeMachine : Prop :=
  ∀ (config : Config) (font : List Byte) (banks : List Bank) (image : List Byte) (s : State), config.wf →
    (∀ b ∈ banks, b.range.min ≤ b.range.max) → State.create config font banks image = .ok s →
    s.Inv ∧ ∀ b ∈ banks, b.range.overlaps ⟨0x0000#16, 0x004F#16⟩ = false

/-- Every machine there can be between ticks is safe: created by setup, then ticked and served in any order (R135).
Setup ends at a rejected bank, which is the model's choice of log entry 23. -/
def Obligations.EveryReachableStateIsSafe : Prop := ∀ s : State, Reachable s → s.Inv

/-- A program that has jumped to its own address stays there: the tick after it gives a final state, and changes
nothing but the timers, the keys, the output and the draws (R136; decision D30). -/
def Obligations.JumpToSelfIsFinal : Prop :=
  ∀ s : State, s.discarded = false → s.fault = none → s.final →
    ∃ t, step s = .next t ∧ t.final ∧ t.fault = none ∧
      KeepsAllBut {.delay, .sound, .clock, .keys, .output, .draws} s t
end

