-- ==== Sys2Proof/Laws/Decode.lean ====
section
/-! SUPPORT. The fields of a word as digits of its number, and the fields of an encoded word. -/

namespace Sys2Proof.Laws

/-! ### Concatenation and fields as arithmetic -/

theorem toNat_append_eq {m n : Nat} (x : BitVec m) (y : BitVec n) :
    (x ++ y).toNat = x.toNat * 2 ^ n + y.toNat := by
  rw [BitVec.toNat_append, ← Nat.shiftLeft_add_eq_or_of_lt y.isLt, Nat.shiftLeft_eq]

theorem toNat_wordOfBytes (hi lo : Byte) : (wordOfBytes hi lo).toNat = hi.toNat * 256 + lo.toNat :=
  toNat_append_eq hi lo

theorem toNat_fmtA (op : BitVec 4) (nnn : Imm12) : (fmtA op nnn).toNat = op.toNat * 4096 + nnn.toNat :=
  toNat_append_eq op nnn

theorem toNat_fmtXB (op : BitVec 4) (x : Reg) (nn : Byte) :
    (fmtXB op x nn).toNat = op.toNat * 4096 + x.val * 256 + nn.toNat := by
  have h : (fmtXB op x nn).toNat = (op ++ (BitVec.ofFin x : BitVec 4)).toNat * 2 ^ 8 + nn.toNat :=
    toNat_append_eq _ nn
  rw [h, toNat_append_eq]
  simp only [BitVec.toNat_ofFin]
  omega

theorem toNat_fmtXYN (op : BitVec 4) (x y n : Fin 16) :
    (fmtXYN op x y n).toNat = op.toNat * 4096 + x.val * 256 + y.val * 16 + n.val := by
  have h : (fmtXYN op x y n).toNat =
      (op ++ (BitVec.ofFin x : BitVec 4) ++ (BitVec.ofFin y : BitVec 4)).toNat * 2 ^ 4 + n.val :=
    toNat_append_eq _ (BitVec.ofFin n : BitVec 4)
  rw [h, toNat_append_eq, toNat_append_eq]
  simp only [BitVec.toNat_ofFin]
  omega

theorem toNat_fieldOp (w : InstrWord) : (fieldOp w).toNat = w.toNat / 4096 := by
  have := w.isLt
  simp only [fieldOp, BitVec.extractLsb'_toNat, Nat.shiftRight_eq_div_pow]
  omega

theorem val_fieldX (w : InstrWord) : (fieldX w).val = w.toNat / 256 % 16 := by
  simp only [fieldX, BitVec.val_toFin, BitVec.extractLsb'_toNat, Nat.shiftRight_eq_div_pow]

theorem val_fieldY (w : InstrWord) : (fieldY w).val = w.toNat / 16 % 16 := by
  simp only [fieldY, BitVec.val_toFin, BitVec.extractLsb'_toNat, Nat.shiftRight_eq_div_pow]

theorem val_fieldN (w : InstrWord) : (fieldN w).val = w.toNat % 16 := by
  simp [fieldN]

theorem toNat_fieldNN (w : InstrWord) : (fieldNN w).toNat = w.toNat % 256 := by
  simp [fieldNN]

theorem toNat_fieldNNN (w : InstrWord) : (fieldNNN w).toNat = w.toNat % 4096 := by
  simp [fieldNNN]

/-! ### The fields of an encoded word -/

section
variable (op : BitVec 4) (nnn : Imm12) (x y n : Fin 16) (nn : Byte)

@[simp] theorem fieldOp_fmtA : fieldOp (fmtA op nnn) = op := by
  apply BitVec.eq_of_toNat_eq; rw [toNat_fieldOp, toNat_fmtA]; omega

@[simp] theorem fieldNNN_fmtA : fieldNNN (fmtA op nnn) = nnn := by
  apply BitVec.eq_of_toNat_eq; rw [toNat_fieldNNN, toNat_fmtA]; omega

@[simp] theorem fieldOp_fmtXB : fieldOp (fmtXB op x nn) = op := by
  apply BitVec.eq_of_toNat_eq; rw [toNat_fieldOp, toNat_fmtXB]; omega

@[simp] theorem fieldX_fmtXB : fieldX (fmtXB op x nn) = x := by
  apply Fin.ext; rw [val_fieldX, toNat_fmtXB]; omega

@[simp] theorem fieldNN_fmtXB : fieldNN (fmtXB op x nn) = nn := by
  apply BitVec.eq_of_toNat_eq; rw [toNat_fieldNN, toNat_fmtXB]; omega

@[simp] theorem fieldOp_fmtXYN : fieldOp (fmtXYN op x y n) = op := by
  apply BitVec.eq_of_toNat_eq; rw [toNat_fieldOp, toNat_fmtXYN]; omega

@[simp] theorem fieldX_fmtXYN : fieldX (fmtXYN op x y n) = x := by
  apply Fin.ext; rw [val_fieldX, toNat_fmtXYN]; omega

@[simp] theorem fieldY_fmtXYN : fieldY (fmtXYN op x y n) = y := by
  apply Fin.ext; rw [val_fieldY, toNat_fmtXYN]; omega

@[simp] theorem fieldN_fmtXYN : fieldN (fmtXYN op x y n) = n := by
  apply Fin.ext; rw [val_fieldN, toNat_fmtXYN]; omega

end

/-! ### A word from its fields -/

theorem fmtA_fields (w : InstrWord) : fmtA (fieldOp w) (fieldNNN w) = w := by
  apply BitVec.eq_of_toNat_eq; rw [toNat_fmtA, toNat_fieldOp, toNat_fieldNNN]; omega

theorem fmtXB_fields (w : InstrWord) : fmtXB (fieldOp w) (fieldX w) (fieldNN w) = w := by
  apply BitVec.eq_of_toNat_eq; rw [toNat_fmtXB, toNat_fieldOp, val_fieldX, toNat_fieldNN]; omega

theorem fmtXYN_fields (w : InstrWord) : fmtXYN (fieldOp w) (fieldX w) (fieldY w) (fieldN w) = w := by
  apply BitVec.eq_of_toNat_eq
  rw [toNat_fmtXYN, toNat_fieldOp, val_fieldX, val_fieldY, val_fieldN]; omega

@[simp] theorem wordOfBytes_split (w : InstrWord) :
    wordOfBytes (w.extractLsb' 8 8) (w.extractLsb' 0 8) = w := by
  apply BitVec.eq_of_toNat_eq
  have := w.isLt
  simp only [toNat_wordOfBytes, BitVec.extractLsb'_toNat, Nat.shiftRight_eq_div_pow]
  omega

/-! ### A word that is none of the three whole words is decoded by its high nibble -/

theorem decode_of_op_ne_zero {w : InstrWord} (h : fieldOp w ≠ 0#4) : decode w = decodeByOp w := by
  have h1 : w ≠ 0x0000#16 := by rintro rfl; exact h (by decide)
  have h2 : w ≠ 0x00E0#16 := by rintro rfl; exact h (by decide)
  have h3 : w ≠ 0x00EE#16 := by rintro rfl; exact h (by decide)
  rw [decode, if_neg h1, if_neg h2, if_neg h3]

/-! ### Fields from their numbers, errors -/

theorem fieldOp_of_toNat {w : InstrWord} {k : Nat} (h : (fieldOp w).toNat = k) : fieldOp w = BitVec.ofNat 4 k := by
  apply BitVec.eq_of_toNat_eq; rw [h]; have := (fieldOp w).isLt; simp; omega

theorem fieldNN_of_toNat {w : InstrWord} {k : Nat} (h : (fieldNN w).toNat = k) : fieldNN w = BitVec.ofNat 8 k := by
  apply BitVec.eq_of_toNat_eq; rw [h]; have := (fieldNN w).isLt; simp; omega

theorem fieldN_of_val {w : InstrWord} {k : Nat} (h : (fieldN w).val = k) : fieldN w = Fin.ofNat 16 k := by
  apply Fin.ext; rw [h]; have := (fieldN w).isLt; simp; omega

/-- A word that fails to decode is named by its error (R53). -/
theorem decode_error_eq {w d} (h : decode w = .error d) : d = .illegalWord w := by
  unfold decode decodeByOp decodeArith decodeKey decodeMisc at h
  repeat' split at h
  all_goals (first | (cases h; done) | (cases h; rfl))

theorem toNat_zext16_imm (nnn : Imm12) : (zext16 12 nnn).toNat = nnn.toNat := by
  have := nnn.isLt
  simp [zext16]; try omega

end Sys2Proof.Laws
end

