-- ==== Sys2Proof/Laws/Memory.lean ====
section
/-! SUPPORT. The memory mapper: read after write, frames, and the canonical form kept by every memory operation. -/

namespace Sys2Proof.Machine

/-! ### Cell lists -/

theorem cellAt_put (cells : List Host.Cell) (a b : Nat) (v : Byte) :
    cellAt (cellPut cells a v) b = if b = a then some v else cellAt cells b := by
  induction cells with
  | nil => simp [cellPut, cellAt]
  | cons c rest ih =>
    obtain ⟨k, w⟩ := c
    unfold cellPut
    split
    · by_cases hb : b = a <;> simp [cellAt, hb]
    · split
      · rename_i h1 h2
        subst h2
        by_cases hb : b = a <;> simp [cellAt, hb]
      · by_cases hk : b = k
        · subst hk
          have : b ≠ a := by omega
          simp [cellAt, this]
        · simp [cellAt, hk, ih]

theorem cellAt_drop (cells : List Host.Cell) (a b : Nat) :
    cellAt (cellDrop cells a) b = if b = a then none else cellAt cells b := by
  induction cells with
  | nil => simp [cellDrop, cellAt]
  | cons c rest ih =>
    obtain ⟨k, w⟩ := c
    unfold cellDrop at ih ⊢
    by_cases hk : k = a
    · subst hk
      rw [List.filter_cons_of_neg (by simp), ih]
      by_cases hb : b = k <;> simp [cellAt, hb]
    · rw [List.filter_cons_of_pos (by simpa using hk)]
      by_cases hb : b = k
      · subst hb; simp [cellAt, hk]
      · simp [cellAt, hb, ih]

theorem mem_cellPut {cells : List Host.Cell} {a : Nat} {v : Byte} {c : Host.Cell}
    (h : c ∈ cellPut cells a v) : c = (a, v) ∨ c ∈ cells := by
  induction cells with
  | nil => simpa [cellPut] using h
  | cons d rest ih =>
    obtain ⟨k, w⟩ := d
    unfold cellPut at h
    split at h
    · simpa using h
    · split at h
      · rcases List.mem_cons.1 h with h | h
        · exact .inl h
        · exact .inr (List.mem_cons_of_mem _ h)
      · rcases List.mem_cons.1 h with h | h
        · exact .inr (h ▸ List.mem_cons_self)
        · exact (ih h).imp id (List.mem_cons_of_mem _)

theorem pairwise_cellPut {cells : List Host.Cell} (h : cells.Pairwise fun c d => c.1 < d.1) (a : Nat) (v : Byte) :
    (cellPut cells a v).Pairwise fun c d => c.1 < d.1 := by
  induction cells with
  | nil => simp [cellPut]
  | cons d rest ih =>
    obtain ⟨k, w⟩ := d
    rw [List.pairwise_cons] at h
    unfold cellPut
    split
    · rename_i hk
      rw [List.pairwise_cons]
      refine ⟨fun c hc => ?_, List.pairwise_cons.2 h⟩
      rcases List.mem_cons.1 hc with rfl | hc
      · exact hk
      · exact Nat.lt_trans hk (h.1 c hc)
    · split
      · rename_i hk
        subst hk
        exact List.pairwise_cons.2 h
      · rw [List.pairwise_cons]
        refine ⟨fun c hc => ?_, ih h.2⟩
        rcases mem_cellPut hc with rfl | hc
        · simp only; omega
        · exact h.1 c hc

/-! ### One byte -/

section
variable (m : Memory) (a b : Addr) (v : Byte)

@[simp] theorem Memory.poke_banks : (m.poke a v).banks = m.banks := rfl
@[simp] theorem Memory.poke_find : (m.poke a v).find b = m.find b := rfl
@[simp] theorem Memory.poke_unlisted : (m.poke a v).unlisted b = m.unlisted b := rfl
@[simp] theorem Memory.poke_backed : (m.poke a v).backed b = m.backed b := rfl

/-- The store behind an address after one byte of it is replaced. -/
theorem Memory.peek_poke : (m.poke a v).peek b = if b = a then v else m.peek b := by
  unfold Memory.peek
  rw [Memory.poke_unlisted]
  unfold Memory.poke
  have hab : (b = a) = (b.toNat = a.toNat) := by rw [BitVec.toNat_inj]
  simp only [hab]
  by_cases hv : v = m.unlisted a
  · rw [if_pos hv, cellAt_drop]
    by_cases h : b.toNat = a.toNat
    · rw [if_pos h, if_pos h, BitVec.eq_of_toNat_eq h]
      simp [hv]
    · rw [if_neg h, if_neg h]
  · rw [if_neg hv, cellAt_put]
    by_cases h : b.toNat = a.toNat
    · rw [if_pos h, if_pos h]; rfl
    · rw [if_neg h, if_neg h]

/-- A read depends on the banks and on the byte of the store alone. -/
theorem Memory.read_congr {m m' : Memory} {a : Addr} (hb : m'.banks = m.banks) (hp : m'.peek a = m.peek a) :
    m'.read a = m.read a := by
  simp only [Memory.read, Memory.find, hb, hp]

theorem Memory.read_poke_of_ne {a b : Addr} (h : b ≠ a) : (m.poke a v).read b = m.read b :=
  Memory.read_congr rfl (by rw [Memory.peek_poke, if_neg h])

/-- When a read gives a byte. -/
theorem Memory.read_ok_iff : m.read a = .ok v ↔
    ∃ k, m.find a = some k ∧ k.cap ≠ .writeOnly ∧ k.offset a < k.len ∧ m.peek a = v := by
  unfold Memory.read
  cases h : m.find a with
  | none => simp
  | some k =>
    by_cases h1 : k.cap = .writeOnly
    · simp [h1]
    · by_cases h2 : k.len ≤ k.offset a
      · simp [h1, h2, Nat.not_lt.2 h2]
      · simp [h1, h2, Nat.lt_of_not_le h2]

/-- What a write that succeeds does: the byte of the store is replaced, where the bank lets it. -/
theorem Memory.write_ok_iff (m' : Memory) : m.write a v = .ok m' ↔
    ∃ k, m.find a = some k ∧ k.cap ≠ .readOnly ∧ k.offset a < k.len ∧ m' = m.poke a v := by
  unfold Memory.write
  cases h : m.find a with
  | none => simp
  | some k =>
    by_cases h1 : k.cap = .readOnly
    · simp [h1]
    · by_cases h2 : k.len ≤ k.offset a
      · simp [h1, h2, Nat.not_lt.2 h2]
      · simpa [h1, h2, Nat.lt_of_not_le h2] using eq_comm

/-- Whether a write succeeds depends on the banks alone. -/
theorem Memory.write_congr {m m' : Memory} (hb : m'.banks = m.banks) :
    (m'.write a v).isOk = (m.write a v).isOk := by
  simp only [Memory.write, Memory.find, hb]
  cases m.banks.find? _ with
  | none => rfl
  | some k => dsimp only; split <;> [rfl; (split <;> rfl)]

end

/-! ### The canonical form -/

theorem Memory.wf_poke {m : Memory} (h : m.wf) {a : Addr} (hb : m.backed a = true) (v : Byte) :
    (m.poke a v).wf := by
  obtain ⟨hp, hc⟩ := h
  by_cases hv : v = m.unlisted a
  · have e : (m.poke a v).cells = cellDrop m.cells a.toNat := by simp [Memory.poke, hv]
    refine ⟨by rw [e]; exact hp.filter _, fun c h => ?_⟩
    rw [e] at h
    exact hc c (List.mem_of_mem_filter h)
  · have e : (m.poke a v).cells = cellPut m.cells a.toNat v := by simp [Memory.poke, hv]
    refine ⟨by rw [e]; exact pairwise_cellPut hp _ _, fun c h => ?_⟩
    rw [e] at h
    rcases mem_cellPut h with rfl | h
    · refine ⟨a.isLt, ?_, ?_⟩
      · simpa using hb
      · simpa using hv
    · exact hc c h

theorem Memory.backed_of_find {m : Memory} {a : Addr} {k : Bank} (h : m.find a = some k)
    (hl : k.offset a < k.len) : m.backed a = true := by
  simp [Memory.backed, h, hl]

theorem Memory.wf_write {m m' : Memory} (h : m.wf) {a : Addr} {v : Byte} (hw : m.write a v = .ok m') : m'.wf := by
  obtain ⟨k, hf, -, hl, rfl⟩ := (m.write_ok_iff a v m').1 hw
  exact Memory.wf_poke h (Memory.backed_of_find hf hl) v

theorem Memory.write_banks {m m' : Memory} {a : Addr} {v : Byte} (hw : m.write a v = .ok m') :
    m'.banks = m.banks := by
  obtain ⟨k, -, -, -, rfl⟩ := (m.write_ok_iff a v m').1 hw
  rfl

/-! ### Ranges -/

theorem Memory.writeRange_banks (m : Memory) (a : Addr) (vs : List Byte) : (m.writeRange a vs).1.banks = m.banks := by
  induction vs generalizing m a with
  | nil => rfl
  | cons v vs ih =>
    rw [Memory.writeRange]
    cases hw : m.write a v with
    | error e => rfl
    | ok m' => exact (ih m' (a + 1)).trans (Memory.write_banks hw)

theorem Memory.wf_writeRange {m : Memory} (h : m.wf) (a : Addr) (vs : List Byte) : (m.writeRange a vs).1.wf := by
  induction vs generalizing m a with
  | nil => exact h
  | cons v vs ih =>
    rw [Memory.writeRange]
    cases hw : m.write a v with
    | error e => exact h
    | ok m' => exact ih (Memory.wf_write h hw) (a + 1)

theorem addr_step (a : Addr) (k : Nat) : a + 1 + BitVec.ofNat 16 k = a + BitVec.ofNat 16 (k + 1) := by
  apply BitVec.eq_of_toNat_eq
  simp only [BitVec.toNat_add, BitVec.toNat_ofNat, BitVec.ofNat_eq_ofNat]
  omega

/-- A range write leaves every byte outside the range as it was, whether it succeeds or not. -/
theorem Memory.peek_writeRange_of_outside (m : Memory) (a : Addr) (vs : List Byte) (b : Addr)
    (h : ∀ k < vs.length, b ≠ a + BitVec.ofNat 16 k) : (m.writeRange a vs).1.peek b = m.peek b := by
  induction vs generalizing m a with
  | nil => rfl
  | cons v vs ih =>
    rw [Memory.writeRange]
    cases hw : m.write a v with
    | error e => rfl
    | ok m' =>
      obtain ⟨k, -, -, -, rfl⟩ := (m.write_ok_iff a v m').1 hw
      dsimp only
      rw [ih _ _ (fun k hk => by rw [addr_step]; exact h (k + 1) (by simpa using hk)), Memory.peek_poke,
        if_neg (by simpa using h 0 (by simp))]

theorem Memory.read_writeRange_of_outside (m : Memory) (a : Addr) (vs : List Byte) (b : Addr)
    (h : ∀ k < vs.length, b ≠ a + BitVec.ofNat 16 k) : (m.writeRange a vs).1.read b = m.read b :=
  Memory.read_congr (Memory.writeRange_banks m a vs) (Memory.peek_writeRange_of_outside m a vs b h)

/-- A range write that succeeds puts every listed byte in its place (the range is shorter than the address space). -/
theorem Memory.peek_writeRange_of_inside (m : Memory) (a : Addr) (vs : List Byte) (hl : vs.length ≤ 65536)
    (hok : (m.writeRange a vs).2 = none) (k : Nat) (hk : k < vs.length) :
    (m.writeRange a vs).1.peek (a + BitVec.ofNat 16 k) = vs[k] := by
  induction vs generalizing m a k with
  | nil => simp at hk
  | cons v vs ih =>
    rw [Memory.writeRange] at hok ⊢
    cases hw : m.write a v with
    | error e => simp [hw] at hok
    | ok m' =>
      rw [hw] at hok
      simp only [List.length_cons] at hl hk
      dsimp only at hok ⊢
      cases k with
      | zero =>
        rw [Memory.peek_writeRange_of_outside]
        · obtain ⟨j, -, -, -, rfl⟩ := (m.write_ok_iff a v m').1 hw
          rw [Memory.peek_poke, if_pos (by simp)]
          rfl
        · intro j hj he
          have h := congrArg BitVec.toNat he
          simp only [BitVec.toNat_add, BitVec.toNat_ofNat, BitVec.ofNat_eq_ofNat] at h
          have := a.isLt
          omega
      | succ j =>
        rw [← addr_step]
        exact ih m' (a + 1) (by omega) hok j (by omega)

/-- When a range write succeeds: every byte of the range has a bank that can be written and whose store reaches it. -/
theorem Memory.writeRange_ok_iff (m : Memory) (a : Addr) (vs : List Byte) :
    (m.writeRange a vs).2 = none ↔
      ∀ k < vs.length, ∃ b, m.find (a + BitVec.ofNat 16 k) = some b ∧ b.cap ≠ .readOnly ∧
        b.offset (a + BitVec.ofNat 16 k) < b.len := by
  induction vs generalizing m a with
  | nil => simp [Memory.writeRange]
  | cons v vs ih =>
    rw [Memory.writeRange]
    cases hw : m.write a v with
    | error e =>
      dsimp only
      refine iff_of_false (by simp) fun h => ?_
      obtain ⟨b, h1, h2, h3⟩ := h 0 (by simp)
      simp only [BitVec.add_zero] at h1 h3
      have := (m.write_ok_iff a v (m.poke a v)).2 ⟨b, h1, h2, h3, rfl⟩
      rw [hw] at this
      cases this
    | ok m' =>
      obtain ⟨b, h1, h2, h3, rfl⟩ := (m.write_ok_iff a v m').1 hw
      dsimp only
      rw [ih]
      simp only [Memory.poke_find, addr_step, List.length_cons]
      constructor
      · intro h k hk
        cases k with
        | zero => exact ⟨b, by simpa using h1, h2, by simpa using h3⟩
        | succ j => exact h j (by omega)
      · intro h k hk
        exact h (k + 1) (by omega)

/-- A range read that succeeds gives the bytes of the range in order. -/
theorem Memory.readRange_ok {m : Memory} {a : Addr} {n : Nat} (hok : (m.readRange a n).2 = none) :
    (m.readRange a n).1 = (List.range n).map fun k => m.peek (a + BitVec.ofNat 16 k) := by
  induction n generalizing a with
  | zero => rfl
  | succ n ih =>
    rw [Memory.readRange] at hok ⊢
    cases hr : m.read a with
    | error e => simp [hr] at hok
    | ok b =>
      rw [hr] at hok
      dsimp only at hok ⊢
      rw [ih hok, List.range_succ_eq_map, List.map_cons, List.map_map]
      obtain ⟨k, -, -, -, hp⟩ := (m.read_ok_iff a b).1 hr
      congr 1
      · simpa using hp.symm
      · apply List.map_congr_left
        intro k _
        rw [Function.comp_apply, addr_step]

theorem Memory.readRange_length_le (m : Memory) (a : Addr) (n : Nat) : (m.readRange a n).1.length ≤ n := by
  induction n generalizing a with
  | zero => simp [Memory.readRange]
  | succ n ih =>
    rw [Memory.readRange]
    cases m.read a with
    | error e => simp
    | ok b => simpa using ih (a + 1)

/-- When a range read succeeds: every byte of the range can be read. -/
theorem Memory.readRange_ok_iff (m : Memory) (a : Addr) (n : Nat) :
    (m.readRange a n).2 = none ↔ ∀ k < n, ∃ v, m.read (a + BitVec.ofNat 16 k) = .ok v := by
  induction n generalizing a with
  | zero => simp [Memory.readRange]
  | succ n ih =>
    rw [Memory.readRange]
    cases hr : m.read a with
    | error e =>
      refine iff_of_false (by simp) fun h => ?_
      obtain ⟨v, hv⟩ := h 0 (by simp)
      rw [BitVec.add_zero, hr] at hv
      cases hv
    | ok b =>
      dsimp only
      rw [ih]
      simp only [addr_step]
      constructor
      · intro h k hk
        cases k with
        | zero => exact ⟨b, by simpa using hr⟩
        | succ j => exact h j (by omega)
      · intro h k hk
        exact h (k + 1) (by omega)

end Sys2Proof.Machine
end

