-- ==== Sys2Proof/Laws/State.lean ====
section
/-! SUPPORT. One lemma per field and update of State, each true by rfl, and the register reads after an update. -/

namespace Sys2Proof.Machine

variable (s : State)

/-! ### raise -/

@[simp] theorem State.raise_v (w : Option InstrWord) (e : CoreError) : (s.raise w e).v = s.v := rfl
@[simp] theorem State.raise_i (w : Option InstrWord) (e : CoreError) : (s.raise w e).i = s.i := rfl
@[simp] theorem State.raise_pc (w : Option InstrWord) (e : CoreError) : (s.raise w e).pc = s.pc := rfl
@[simp] theorem State.raise_stack (w : Option InstrWord) (e : CoreError) : (s.raise w e).stack = s.stack := rfl
@[simp] theorem State.raise_timers (w : Option InstrWord) (e : CoreError) : (s.raise w e).timers = s.timers := rfl
@[simp] theorem State.raise_keys (w : Option InstrWord) (e : CoreError) : (s.raise w e).keys = s.keys := rfl
@[simp] theorem State.raise_video (w : Option InstrWord) (e : CoreError) : (s.raise w e).video = s.video := rfl
@[simp] theorem State.raise_mem (w : Option InstrWord) (e : CoreError) : (s.raise w e).mem = s.mem := rfl
@[simp] theorem State.raise_fault (w : Option InstrWord) (e : CoreError) : (s.raise w e).fault = some { error := e, pc := s.pc, word := w } := rfl
@[simp] theorem State.raise_config (w : Option InstrWord) (e : CoreError) : (s.raise w e).config = s.config := rfl
@[simp] theorem State.raise_discarded (w : Option InstrWord) (e : CoreError) : (s.raise w e).discarded = s.discarded := rfl
@[simp] theorem State.raise_draws (w : Option InstrWord) (e : CoreError) : (s.raise w e).draws = s.draws := rfl
@[simp] theorem State.raise_reg (w : Option InstrWord) (e : CoreError) (r : Reg) : (s.raise w e).reg r = s.reg r := rfl

/-! ### advance -/

@[simp] theorem State.advance_v : (s.advance).v = s.v := rfl
@[simp] theorem State.advance_i : (s.advance).i = s.i := rfl
@[simp] theorem State.advance_pc : (s.advance).pc = s.pc + 2 := rfl
@[simp] theorem State.advance_stack : (s.advance).stack = s.stack := rfl
@[simp] theorem State.advance_timers : (s.advance).timers = s.timers := rfl
@[simp] theorem State.advance_keys : (s.advance).keys = s.keys := rfl
@[simp] theorem State.advance_video : (s.advance).video = s.video := rfl
@[simp] theorem State.advance_mem : (s.advance).mem = s.mem := rfl
@[simp] theorem State.advance_fault : (s.advance).fault = s.fault := rfl
@[simp] theorem State.advance_config : (s.advance).config = s.config := rfl
@[simp] theorem State.advance_discarded : (s.advance).discarded = s.discarded := rfl
@[simp] theorem State.advance_draws : (s.advance).draws = s.draws := rfl
@[simp] theorem State.advance_reg (r : Reg) : (s.advance).reg r = s.reg r := rfl

/-! ### skipIf -/

@[simp] theorem State.skipIf_v (b : Bool) : (s.skipIf b).v = s.v := rfl
@[simp] theorem State.skipIf_i (b : Bool) : (s.skipIf b).i = s.i := rfl
@[simp] theorem State.skipIf_pc (b : Bool) : (s.skipIf b).pc = s.pc + (if b then 4 else 2) := rfl
@[simp] theorem State.skipIf_stack (b : Bool) : (s.skipIf b).stack = s.stack := rfl
@[simp] theorem State.skipIf_timers (b : Bool) : (s.skipIf b).timers = s.timers := rfl
@[simp] theorem State.skipIf_keys (b : Bool) : (s.skipIf b).keys = s.keys := rfl
@[simp] theorem State.skipIf_video (b : Bool) : (s.skipIf b).video = s.video := rfl
@[simp] theorem State.skipIf_mem (b : Bool) : (s.skipIf b).mem = s.mem := rfl
@[simp] theorem State.skipIf_fault (b : Bool) : (s.skipIf b).fault = s.fault := rfl
@[simp] theorem State.skipIf_config (b : Bool) : (s.skipIf b).config = s.config := rfl
@[simp] theorem State.skipIf_discarded (b : Bool) : (s.skipIf b).discarded = s.discarded := rfl
@[simp] theorem State.skipIf_draws (b : Bool) : (s.skipIf b).draws = s.draws := rfl
@[simp] theorem State.skipIf_reg (b : Bool) (r : Reg) : (s.skipIf b).reg r = s.reg r := rfl

/-! ### jumpTo -/

@[simp] theorem State.jumpTo_v (a : Addr) : (s.jumpTo a).v = s.v := rfl
@[simp] theorem State.jumpTo_i (a : Addr) : (s.jumpTo a).i = s.i := rfl
@[simp] theorem State.jumpTo_pc (a : Addr) : (s.jumpTo a).pc = a := rfl
@[simp] theorem State.jumpTo_stack (a : Addr) : (s.jumpTo a).stack = s.stack := rfl
@[simp] theorem State.jumpTo_timers (a : Addr) : (s.jumpTo a).timers = s.timers := rfl
@[simp] theorem State.jumpTo_keys (a : Addr) : (s.jumpTo a).keys = s.keys := rfl
@[simp] theorem State.jumpTo_video (a : Addr) : (s.jumpTo a).video = s.video := rfl
@[simp] theorem State.jumpTo_mem (a : Addr) : (s.jumpTo a).mem = s.mem := rfl
@[simp] theorem State.jumpTo_fault (a : Addr) : (s.jumpTo a).fault = s.fault := rfl
@[simp] theorem State.jumpTo_config (a : Addr) : (s.jumpTo a).config = s.config := rfl
@[simp] theorem State.jumpTo_discarded (a : Addr) : (s.jumpTo a).discarded = s.discarded := rfl
@[simp] theorem State.jumpTo_draws (a : Addr) : (s.jumpTo a).draws = s.draws := rfl
@[simp] theorem State.jumpTo_reg (a : Addr) (r : Reg) : (s.jumpTo a).reg r = s.reg r := rfl

/-! ### push -/

@[simp] theorem State.push_v (a : Addr) : (s.push a).v = s.v := rfl
@[simp] theorem State.push_i (a : Addr) : (s.push a).i = s.i := rfl
@[simp] theorem State.push_pc (a : Addr) : (s.push a).pc = s.pc := rfl
@[simp] theorem State.push_stack (a : Addr) : (s.push a).stack = a :: s.stack := rfl
@[simp] theorem State.push_timers (a : Addr) : (s.push a).timers = s.timers := rfl
@[simp] theorem State.push_keys (a : Addr) : (s.push a).keys = s.keys := rfl
@[simp] theorem State.push_video (a : Addr) : (s.push a).video = s.video := rfl
@[simp] theorem State.push_mem (a : Addr) : (s.push a).mem = s.mem := rfl
@[simp] theorem State.push_fault (a : Addr) : (s.push a).fault = s.fault := rfl
@[simp] theorem State.push_config (a : Addr) : (s.push a).config = s.config := rfl
@[simp] theorem State.push_discarded (a : Addr) : (s.push a).discarded = s.discarded := rfl
@[simp] theorem State.push_draws (a : Addr) : (s.push a).draws = s.draws := rfl
@[simp] theorem State.push_reg (a : Addr) (r : Reg) : (s.push a).reg r = s.reg r := rfl

/-! ### setReg -/

@[simp] theorem State.setReg_v (r : Reg) (x : Byte) : (s.setReg r x).v = s.v.set r x := rfl
@[simp] theorem State.setReg_i (r : Reg) (x : Byte) : (s.setReg r x).i = s.i := rfl
@[simp] theorem State.setReg_pc (r : Reg) (x : Byte) : (s.setReg r x).pc = s.pc := rfl
@[simp] theorem State.setReg_stack (r : Reg) (x : Byte) : (s.setReg r x).stack = s.stack := rfl
@[simp] theorem State.setReg_timers (r : Reg) (x : Byte) : (s.setReg r x).timers = s.timers := rfl
@[simp] theorem State.setReg_keys (r : Reg) (x : Byte) : (s.setReg r x).keys = s.keys := rfl
@[simp] theorem State.setReg_video (r : Reg) (x : Byte) : (s.setReg r x).video = s.video := rfl
@[simp] theorem State.setReg_mem (r : Reg) (x : Byte) : (s.setReg r x).mem = s.mem := rfl
@[simp] theorem State.setReg_fault (r : Reg) (x : Byte) : (s.setReg r x).fault = s.fault := rfl
@[simp] theorem State.setReg_config (r : Reg) (x : Byte) : (s.setReg r x).config = s.config := rfl
@[simp] theorem State.setReg_discarded (r : Reg) (x : Byte) : (s.setReg r x).discarded = s.discarded := rfl
@[simp] theorem State.setReg_draws (r : Reg) (x : Byte) : (s.setReg r x).draws = s.draws := rfl

/-! ### setFlag -/

@[simp] theorem State.setFlag_v (b : Bool) : (s.setFlag b).v = s.v.set vF (flagByte b) := rfl
@[simp] theorem State.setFlag_i (b : Bool) : (s.setFlag b).i = s.i := rfl
@[simp] theorem State.setFlag_pc (b : Bool) : (s.setFlag b).pc = s.pc := rfl
@[simp] theorem State.setFlag_stack (b : Bool) : (s.setFlag b).stack = s.stack := rfl
@[simp] theorem State.setFlag_timers (b : Bool) : (s.setFlag b).timers = s.timers := rfl
@[simp] theorem State.setFlag_keys (b : Bool) : (s.setFlag b).keys = s.keys := rfl
@[simp] theorem State.setFlag_video (b : Bool) : (s.setFlag b).video = s.video := rfl
@[simp] theorem State.setFlag_mem (b : Bool) : (s.setFlag b).mem = s.mem := rfl
@[simp] theorem State.setFlag_fault (b : Bool) : (s.setFlag b).fault = s.fault := rfl
@[simp] theorem State.setFlag_config (b : Bool) : (s.setFlag b).config = s.config := rfl
@[simp] theorem State.setFlag_discarded (b : Bool) : (s.setFlag b).discarded = s.discarded := rfl
@[simp] theorem State.setFlag_draws (b : Bool) : (s.setFlag b).draws = s.draws := rfl

/-! ### beginTick -/

@[simp] theorem State.beginTick_v : (s.beginTick).v = s.v := rfl
@[simp] theorem State.beginTick_i : (s.beginTick).i = s.i := rfl
@[simp] theorem State.beginTick_pc : (s.beginTick).pc = s.pc := rfl
@[simp] theorem State.beginTick_stack : (s.beginTick).stack = s.stack := rfl
@[simp] theorem State.beginTick_timers : (s.beginTick).timers = s.timers.tick (elapsedSeconds s.draws.nextElapsed) := rfl
@[simp] theorem State.beginTick_keys : (s.beginTick).keys = inputTick s.keys := rfl
@[simp] theorem State.beginTick_video : (s.beginTick).video = s.video.clearOutput := rfl
@[simp] theorem State.beginTick_mem : (s.beginTick).mem = s.mem := rfl
@[simp] theorem State.beginTick_fault : (s.beginTick).fault = s.fault := rfl
@[simp] theorem State.beginTick_config : (s.beginTick).config = s.config := rfl
@[simp] theorem State.beginTick_discarded : (s.beginTick).discarded = s.discarded := rfl
@[simp] theorem State.beginTick_draws : (s.beginTick).draws = s.draws.takeElapsed := rfl
@[simp] theorem State.beginTick_reg (r : Reg) : (s.beginTick).reg r = s.reg r := rfl

/-! ### Registers -/

theorem State.setReg_reg (r q : Reg) (x : Byte) : (s.setReg r x).reg q = if q = r then x else s.reg q := by
  simp only [State.reg, State.setReg, Fin.getElem_fin, Vector.getElem_set]
  by_cases h : q = r
  · simp [h]
  · rw [if_neg h, if_neg (fun e => h (Fin.ext e.symm))]

@[simp] theorem State.setReg_reg_same (r : Reg) (x : Byte) : (s.setReg r x).reg r = x := by
  simp [State.setReg_reg]

@[simp] theorem State.setReg_reg_of_ne {r q : Reg} (h : q ≠ r) (x : Byte) : (s.setReg r x).reg q = s.reg q := by
  simp [State.setReg_reg, h]

theorem State.setFlag_reg (b : Bool) (q : Reg) :
    (s.setFlag b).reg q = if q = vF then flagByte b else s.reg q := State.setReg_reg s vF q _

@[simp] theorem State.setFlag_reg_flag (b : Bool) : (s.setFlag b).reg vF = flagByte b := by
  simp [State.setFlag_reg]

@[simp] theorem State.setFlag_reg_of_ne {q : Reg} (h : q ≠ vF) (b : Bool) : (s.setFlag b).reg q = s.reg q := by
  simp [State.setFlag_reg, h]

@[simp] theorem State.loadFrom_i (k : Nat) (bs : List Byte) : (s.loadFrom k bs).i = s.i := by
  induction bs generalizing s k with
  | nil => rfl
  | cons b bs ih => rw [State.loadFrom, ih, State.setReg_i]

@[simp] theorem State.loadFrom_pc (k : Nat) (bs : List Byte) : (s.loadFrom k bs).pc = s.pc := by
  induction bs generalizing s k with
  | nil => rfl
  | cons b bs ih => rw [State.loadFrom, ih, State.setReg_pc]

@[simp] theorem State.loadFrom_stack (k : Nat) (bs : List Byte) : (s.loadFrom k bs).stack = s.stack := by
  induction bs generalizing s k with
  | nil => rfl
  | cons b bs ih => rw [State.loadFrom, ih, State.setReg_stack]

@[simp] theorem State.loadFrom_timers (k : Nat) (bs : List Byte) : (s.loadFrom k bs).timers = s.timers := by
  induction bs generalizing s k with
  | nil => rfl
  | cons b bs ih => rw [State.loadFrom, ih, State.setReg_timers]

@[simp] theorem State.loadFrom_keys (k : Nat) (bs : List Byte) : (s.loadFrom k bs).keys = s.keys := by
  induction bs generalizing s k with
  | nil => rfl
  | cons b bs ih => rw [State.loadFrom, ih, State.setReg_keys]

@[simp] theorem State.loadFrom_video (k : Nat) (bs : List Byte) : (s.loadFrom k bs).video = s.video := by
  induction bs generalizing s k with
  | nil => rfl
  | cons b bs ih => rw [State.loadFrom, ih, State.setReg_video]

@[simp] theorem State.loadFrom_mem (k : Nat) (bs : List Byte) : (s.loadFrom k bs).mem = s.mem := by
  induction bs generalizing s k with
  | nil => rfl
  | cons b bs ih => rw [State.loadFrom, ih, State.setReg_mem]

@[simp] theorem State.loadFrom_fault (k : Nat) (bs : List Byte) : (s.loadFrom k bs).fault = s.fault := by
  induction bs generalizing s k with
  | nil => rfl
  | cons b bs ih => rw [State.loadFrom, ih, State.setReg_fault]

@[simp] theorem State.loadFrom_config (k : Nat) (bs : List Byte) : (s.loadFrom k bs).config = s.config := by
  induction bs generalizing s k with
  | nil => rfl
  | cons b bs ih => rw [State.loadFrom, ih, State.setReg_config]

@[simp] theorem State.loadFrom_discarded (k : Nat) (bs : List Byte) : (s.loadFrom k bs).discarded = s.discarded := by
  induction bs generalizing s k with
  | nil => rfl
  | cons b bs ih => rw [State.loadFrom, ih, State.setReg_discarded]

@[simp] theorem State.loadFrom_draws (k : Nat) (bs : List Byte) : (s.loadFrom k bs).draws = s.draws := by
  induction bs generalizing s k with
  | nil => rfl
  | cons b bs ih => rw [State.loadFrom, ih, State.setReg_draws]

/-- What a block load leaves in each register: the bytes go to V[k], V[k+1], ..., and no other register changes. -/
theorem State.loadFrom_reg (k : Nat) (bs : List Byte) (hk : k + bs.length ≤ 16) (q : Reg) :
    (s.loadFrom k bs).reg q = if k ≤ q.val ∧ q.val < k + bs.length then bs.getD (q.val - k) 0 else s.reg q := by
  induction bs generalizing s k with
  | nil => rw [State.loadFrom, if_neg (by simp)]
  | cons b bs ih =>
    simp only [List.length_cons] at hk
    rw [State.loadFrom, ih _ _ (by omega), State.setReg_reg]
    have hq : (q = Fin.ofNat 16 k) ↔ q.val = k := by
      constructor
      · rintro rfl; simp; omega
      · intro h; apply Fin.ext; simp; omega
    by_cases h1 : k + 1 ≤ q.val ∧ q.val < k + 1 + bs.length
    · obtain ⟨d, hd⟩ := Nat.exists_eq_add_of_le h1.1
      rw [if_pos h1, if_pos (by simp only [List.length_cons]; omega), hd,
        show k + 1 + d - (k + 1) = d by omega, show k + 1 + d - k = d + 1 by omega]
      simp
    · rw [if_neg h1]
      by_cases h2 : q.val = k
      · rw [if_pos (hq.2 h2), if_pos (by simp only [List.length_cons]; omega), h2]
        simp
      · rw [if_neg (fun e => h2 (hq.1 e)), if_neg (by simp only [List.length_cons]; omega)]

end Sys2Proof.Machine
end

