-- ==== Sys2Proof/Laws/Video.lean ====
section
/-! SUPPORT. The video memory: what putting, flipping and drawing pixels does to each pixel, to the events and to the registry. -/

namespace Sys2Proof.Machine

/-! ### One byte, one pixel -/

theorem getLsbD_putBit (byte : Byte) (k j : Nat) (hk : k < 8) (b : Bool) :
    (putBit byte k b).getLsbD j = if j = k then b else byte.getLsbD j := by
  by_cases hj : j < 8
  · cases b <;> by_cases h : j = k <;> simp [putBit, h, hj, hk] <;> omega
  · have : j ≠ k := by omega
    simp [this, BitVec.getLsbD_of_ge _ _ (Nat.le_of_not_lt hj)]

theorem pixelBit_lt (x : Fin 64) : pixelBit x < 8 := by unfold pixelBit; omega

/-- Two pixels share a byte and a bit only if they are the same pixel (R97). -/
theorem pixelByte_bit_inj {x x' : Fin 64} {y y' : Fin 32} (hb : pixelByte x' y' = pixelByte x y)
    (hk : pixelBit x' = pixelBit x) : x' = x ∧ y' = y := by
  have h := congrArg Fin.val hb
  simp only [pixelByte] at h
  unfold pixelBit at hk
  have := x.isLt; have := x'.isLt; have := y.isLt; have := y'.isLt
  exact ⟨Fin.ext (by omega), Fin.ext (by omega)⟩

theorem Video.pixel_putPixel (d : Video) (x x' : Fin 64) (y y' : Fin 32) (b : Bool) :
    (d.putPixel x y b).pixel x' y' = if x' = x ∧ y' = y then b else d.pixel x' y' := by
  simp only [Video.pixel, Video.putPixel, Fin.getElem_fin, Vector.getElem_set]
  by_cases hb : pixelByte x y = pixelByte x' y'
  · rw [if_pos (congrArg Fin.val hb), getLsbD_putBit _ _ _ (pixelBit_lt x)]
    by_cases hk : pixelBit x' = pixelBit x
    · obtain ⟨rfl, rfl⟩ := pixelByte_bit_inj hb.symm hk
      simp
    · rw [if_neg hk, if_neg (fun h => hk (by rw [h.1]))]
      simp only [hb]
  · rw [if_neg (fun h => hb (Fin.ext h)), if_neg (fun h => hb (by rw [h.1, h.2]))]

section
variable (d : Video) (e : VideoEvent) (x x' : Fin 64) (y y' : Fin 32) (b : Bool)

@[simp] theorem Video.emit_pixel : (d.emit e).pixel x y = d.pixel x y := rfl
@[simp] theorem Video.emit_listeners : (d.emit e).listeners = d.listeners := rfl
@[simp] theorem Video.emit_nextId : (d.emit e).nextId = d.nextId := rfl
@[simp] theorem Video.clearOutput_pixel : d.clearOutput.pixel x y = d.pixel x y := rfl
@[simp] theorem Video.clearOutput_listeners : d.clearOutput.listeners = d.listeners := rfl
@[simp] theorem Video.clearOutput_nextId : d.clearOutput.nextId = d.nextId := rfl
@[simp] theorem Video.clear_listeners : d.clear.listeners = d.listeners := rfl
@[simp] theorem Video.clear_nextId : d.clear.nextId = d.nextId := rfl
@[simp] theorem Video.setPixel_listeners : (d.setPixel x y b).1.listeners = d.listeners := rfl
@[simp] theorem Video.setPixel_nextId : (d.setPixel x y b).1.nextId = d.nextId := rfl
@[simp] theorem Video.flip_listeners : (d.flip x y).1.listeners = d.listeners := rfl
@[simp] theorem Video.flip_nextId : (d.flip x y).1.nextId = d.nextId := rfl

theorem Video.clear_pixel : d.clear.pixel x y = false := by
  simp [Video.clear, Video.pixel, Video.emit]

theorem Video.setPixel_pixel :
    (d.setPixel x y b).1.pixel x' y' = if x' = x ∧ y' = y then b else d.pixel x' y' :=
  Video.pixel_putPixel d x x' y y' b

theorem Video.flip_pixel :
    (d.flip x y).1.pixel x' y' = if x' = x ∧ y' = y then !d.pixel x y else d.pixel x' y' :=
  Video.pixel_putPixel d x x' y y' _

end

/-! ### Many flips -/

@[simp] theorem Video.flipAll_listeners (d : Video) (ps : List (Fin 64 × Fin 32)) :
    (d.flipAll ps).1.listeners = d.listeners := by
  induction ps generalizing d with
  | nil => rfl
  | cons p ps ih => rw [Video.flipAll, ih, Video.flip_listeners]

@[simp] theorem Video.flipAll_nextId (d : Video) (ps : List (Fin 64 × Fin 32)) :
    (d.flipAll ps).1.nextId = d.nextId := by
  induction ps generalizing d with
  | nil => rfl
  | cons p ps ih => rw [Video.flipAll, ih, Video.flip_nextId]

/-- Flipping distinct pixels inverts exactly those. -/
theorem Video.flipAll_pixel (d : Video) {ps : List (Fin 64 × Fin 32)} (h : ps.Nodup) (x : Fin 64) (y : Fin 32) :
    (d.flipAll ps).1.pixel x y = (d.pixel x y ^^ decide ((x, y) ∈ ps)) := by
  induction ps generalizing d with
  | nil => simp [Video.flipAll]
  | cons p ps ih =>
    rw [List.nodup_cons] at h
    rw [Video.flipAll, ih _ h.2, Video.flip_pixel]
    by_cases hp : (x, y) = p
    · subst hp
      simp [h.1]
    · have : ¬(x = p.1 ∧ y = p.2) := fun e => hp (Prod.ext e.1 e.2)
      simp [hp, this]

/-- Flipping distinct pixels reports a collision exactly when one of them was set. -/
theorem Video.flipAll_collision (d : Video) {ps : List (Fin 64 × Fin 32)} (h : ps.Nodup) :
    (d.flipAll ps).2 = ps.any fun p => d.pixel p.1 p.2 := by
  induction ps generalizing d with
  | nil => rfl
  | cons p ps ih =>
    rw [List.nodup_cons] at h
    rw [Video.flipAll, ih _ h.2, List.any_cons]
    show (d.pixel p.1 p.2 || _) = (d.pixel p.1 p.2 || _)
    congr 1
    rw [Bool.eq_iff_iff, List.any_eq_true, List.any_eq_true]
    refine exists_congr fun q => and_congr_right fun hq => ?_
    rw [Video.flip_pixel, if_neg]
    rintro ⟨h1, h2⟩
    exact h.1 (by rwa [show q = p from Prod.ext h1 h2] at hq)

/-- Flipping distinct pixels sends one event per flip, in order, with the new value. -/
theorem Video.flipAll_events (d : Video) {ps : List (Fin 64 × Fin 32)} (h : ps.Nodup) :
    (d.flipAll ps).1.events = d.events ++ ps.map fun p => .pixelChanged p.1 p.2 (!d.pixel p.1 p.2) := by
  induction ps generalizing d with
  | nil => simp [Video.flipAll]
  | cons p ps ih =>
    rw [List.nodup_cons] at h
    rw [Video.flipAll, ih _ h.2, List.map_cons]
    have e : (d.flip p.1 p.2).1.events = d.events ++ [.pixelChanged p.1 p.2 (!d.pixel p.1 p.2)] := rfl
    rw [e, List.append_assoc, List.singleton_append]
    congr 2
    apply List.map_congr_left
    intro q hq
    rw [Video.flip_pixel, if_neg]
    rintro ⟨h1, h2⟩
    exact h.1 (by rwa [show q = p from Prod.ext h1 h2] at hq)

/-- Every event is delivered to every listener, in the order of events and then of registration. -/
theorem Video.flipAll_calls (d : Video) {ps : List (Fin 64 × Fin 32)} (h : ps.Nodup) :
    (d.flipAll ps).1.calls = d.calls ++ (ps.map fun p => VideoEvent.pixelChanged p.1 p.2 (!d.pixel p.1 p.2)).flatMap
      fun e => d.listeners.map fun l => .notify l.1 e := by
  induction ps generalizing d with
  | nil => simp [Video.flipAll]
  | cons p ps ih =>
    rw [List.nodup_cons] at h
    rw [Video.flipAll, ih _ h.2, List.map_cons, List.flatMap_cons]
    have e : (d.flip p.1 p.2).1.calls =
        d.calls ++ d.listeners.map fun l => .notify l.1 (.pixelChanged p.1 p.2 (!d.pixel p.1 p.2)) := rfl
    rw [e, List.append_assoc, Video.flip_listeners]
    congr 3
    apply List.map_congr_left
    intro q hq
    rw [Video.flip_pixel, if_neg]
    rintro ⟨h1, h2⟩
    exact h.1 (by rwa [show q = p from Prod.ext h1 h2] at hq)

/-! ### Sprites -/

theorem mem_rowPixels (x0 y0 r : Nat) (row : Byte) (p : Fin 64 × Fin 32) :
    p ∈ rowPixels x0 y0 r row ↔
      ∃ c < 8, row.getLsbD (7 - c) = true ∧ p.1.val = (x0 + c) % 64 ∧ p.2.val = (y0 + r) % 32 := by
  obtain ⟨px, py⟩ := p
  simp only [rowPixels, List.mem_filterMap, List.mem_range, Option.ite_none_right_eq_some, Option.some.injEq,
    Prod.mk.injEq, Fin.ext_iff, Fin.val_ofNat]
  constructor
  · rintro ⟨c, h1, h2, h3, h4⟩; exact ⟨c, h1, h2, h3.symm, h4.symm⟩
  · rintro ⟨c, h1, h2, h3, h4⟩; exact ⟨c, h1, h2, h3.symm, h4.symm⟩

/-- The pixels of a sprite: the set bits of its rows, placed and wrapped (R109). -/
theorem mem_spritePixels (x0 y0 r : Nat) (rows : List Byte) (p : Fin 64 × Fin 32) :
    p ∈ spritePixels x0 y0 r rows ↔
      ∃ k < rows.length, ∃ c < 8, (rows.getD k 0).getLsbD (7 - c) = true ∧ p.1.val = (x0 + c) % 64 ∧
        p.2.val = (y0 + (r + k)) % 32 := by
  induction rows generalizing r with
  | nil => simp [spritePixels]
  | cons row rows ih =>
    rw [spritePixels, List.mem_append, mem_rowPixels, ih]
    constructor
    · rintro (⟨c, h⟩ | ⟨k, hk, c, h⟩)
      · exact ⟨0, by simp, c, by simpa using h⟩
      · refine ⟨k + 1, by simpa using hk, c, ?_⟩
        rw [show r + (k + 1) = r + 1 + k by omega]
        simpa using h
    · rintro ⟨k, hk, c, h⟩
      cases k with
      | zero => exact .inl ⟨c, by simpa using h⟩
      | succ k =>
        refine .inr ⟨k, by simpa using hk, c, ?_⟩
        rw [show r + 1 + k = r + (k + 1) by omega]
        simpa using h

theorem nodup_rowPixels (x0 y0 r : Nat) (row : Byte) : (rowPixels x0 y0 r row).Nodup := by
  apply List.Pairwise.filterMap (R := fun c c' : Nat => c < 8 ∧ c' < 8 ∧ c ≠ c')
  · rintro c c' ⟨h1, h2, h3⟩ p hp q hq
    simp only [Option.ite_none_right_eq_some, Option.some.injEq] at hp hq
    rintro rfl
    have h := congrArg (fun t : Fin 64 × Fin 32 => t.1.val) (hp.2.trans hq.2.symm)
    simp only [Fin.val_ofNat] at h
    omega
  · decide

/-- Within one draw no pixel is flipped twice (R109): a sprite has at most 15 rows. -/
theorem nodup_spritePixels (x0 y0 r : Nat) (rows : List Byte) (h : rows.length ≤ 32) :
    (spritePixels x0 y0 r rows).Nodup := by
  induction rows generalizing r with
  | nil => exact List.nodup_nil
  | cons row rows ih =>
    simp only [List.length_cons] at h
    rw [spritePixels, List.nodup_append]
    refine ⟨nodup_rowPixels _ _ _ _, ih _ (by omega), ?_⟩
    intro p hp q hq
    rw [mem_rowPixels] at hp
    rw [mem_spritePixels] at hq
    obtain ⟨c, _, _, _, h2⟩ := hp
    obtain ⟨k, hk, c', _, _, _, h4⟩ := hq
    rintro rfl
    omega

/-- The pixels of a sprite read from n rows are those of R109. -/
theorem mem_sprite_iff (x0 y0 : Byte) (n : Nat) (rows : Nat → Byte) (p : Fin 64 × Fin 32) :
   p ∈ spritePixels x0.toNat y0.toNat 0 ((List.range n).map rows) ↔ InSprite x0 y0 n rows p.1 p.2 := by
  rw [mem_spritePixels]
  unfold InSprite
  simp only [List.length_map, List.length_range, Nat.zero_add]
  refine exists_congr fun k => and_congr_right fun hk => ?_
  simp [List.getD, hk]

theorem map_rowPixels (x0 y0 r : Nat) (row : Byte) (f : Fin 64 × Fin 32 → VideoEvent) :
  (rowPixels x0 y0 r row).map f = (List.range 8).filterMap fun c => if row.getLsbD (7 - c) = true then some (f (Fin.ofNat 64 (x0 + c), Fin.ofNat 32 (y0 + r))) else none := by
  rw [rowPixels, List.map_filterMap]
  congr 1; funext c
  split <;> rfl

/-- The pixels of a sprite in order, row by row and bit by bit. -/
theorem map_spritePixels (x0 y0 r : Nat) (n : Nat) (rows : Nat → Byte) (f : Fin 64 × Fin 32 → VideoEvent) :
  (spritePixels x0 y0 r ((List.range n).map rows)).map f = (List.range n).flatMap fun k => (List.range 8).filterMap fun c => if (rows k).getLsbD (7 - c) = true then some (f (Fin.ofNat 64 (x0 + c), Fin.ofNat 32 (y0 + (r + k)))) else none := by
  induction n generalizing r rows with
  | zero => rfl
  | succ n ih =>
    rw [List.range_succ_eq_map, List.map_cons, spritePixels, List.map_append, map_rowPixels, List.map_map, List.flatMap_cons]
    have := ih (r+1) (rows ∘ Nat.succ)
    rw [this, List.flatMap_map]
    congr 2
    funext k
    simp only [Function.comp, Nat.succ_eq_add_one, show r + 1 + k = r + (k+1) by omega]

end Sys2Proof.Machine
end

