-- ==== Sys2Proof/Laws/Exec.lean ====
section
/-! SUPPORT. Once, what executing any instruction can do to the parts that no instruction, or few, may write; frames in terms of the parts; keys; fetch after placing a word. -/

open Sys2Proof.Laws

namespace Sys2Proof.Machine

/-! ### Frames -/

theorem KeepsAllBut.mono {c d : Set Part} (h : c ⊆ d) {s t : State} (k : KeepsAllBut c s t) : KeepsAllBut d s t :=
  fun p hp => k p fun hc => hp (h hc)

theorem Part.Kept.refl (s : State) (p : Part) : p.Kept s s := by cases p <;> simp [Part.Kept]

theorem Part.Kept.trans {s t u : State} {p : Part} (h : p.Kept s t) (k : p.Kept t u) : p.Kept s u := by
  cases p <;> simp_all [Part.Kept]

theorem KeepsAllBut.trans {c : Set Part} {s t u : State} (h : KeepsAllBut c s t) (k : KeepsAllBut c t u) :
    KeepsAllBut c s u := fun p hp => (h p hp).trans (k p hp)

/-- Changing pc alone. -/
theorem keepsAllBut_pc (s : State) (a : Addr) : KeepsAllBut {.pc} s { s with pc := a } := by
  intro p hp
  cases p <;> first | exact rfl | exact ⟨rfl, rfl⟩ | exact absurd (by simp) hp

/-- Writing one register, and pc. -/
theorem keepsAllBut_setReg (s : State) (r : Reg) (x : Byte) : KeepsAllBut {.pc, .reg r} s (s.setReg r x).advance := by
  intro p hp
  cases p with
  | reg q =>
    have : q ≠ r := by rintro rfl; exact hp (by simp)
    simp [Part.Kept, this]
  | pc => exact absurd (by simp) hp
  | _ => first | exact rfl | exact ⟨rfl, rfl⟩

/-- Writing a register, then the flag, and pc. -/
theorem keepsAllBut_setReg_setFlag (s : State) (r : Reg) (x : Byte) (b : Bool) :
    KeepsAllBut {.pc, .reg r, .reg vF} s ((s.setReg r x).setFlag b).advance := by
  intro p hp
  cases p with
  | reg q =>
    have h1 : q ≠ r := by rintro rfl; exact hp (by simp)
    have h2 : q ≠ vF := by rintro rfl; exact hp (by simp)
    simp [Part.Kept, h1, h2]
  | pc => exact absurd (by simp) hp
  | _ => first | exact rfl | exact ⟨rfl, rfl⟩

/-- Raising an error from a state, in terms of that state. -/
theorem keepsAllBut_raise (s : State) (w : Option InstrWord) (e : CoreError) : KeepsAllBut {.fault} s (s.raise w e) := by
  intro p hp
  cases p <;> first | exact rfl | exact ⟨rfl, rfl⟩ | exact absurd (by simp) hp

/-- The start of a tick. -/
theorem keepsAllBut_beginTick (s : State) :
    KeepsAllBut {.delay, .sound, .clock, .keys, .output, .draws} s s.beginTick := by
  intro p hp
  cases p <;> first | exact rfl | exact ⟨rfl, rfl⟩ | exact absurd (by simp) hp

/-! ### Executing any instruction -/

/-- Every instruction answers a next state. -/
theorem exec_answers_next (i : Instr) (s : State) : ∃ t, exec i s = .next t := by
  cases i <;> simp only [exec] <;> first | exact ⟨_, rfl⟩ | skip
  case ret => unfold execRet; split <;> exact ⟨_, rfl⟩
  case call => unfold execCall; split <;> exact ⟨_, rfl⟩
  case draw => unfold execDraw; split <;> exact ⟨_, rfl⟩
  case skipKeyDown => unfold execSkipKeyDown; split <;> exact ⟨_, rfl⟩
  case skipKeyUp => unfold execSkipKeyUp; split <;> exact ⟨_, rfl⟩
  case waitKey => unfold execWaitKey; split <;> exact ⟨_, rfl⟩
  case bcd => unfold execBcd State.endStore; split <;> exact ⟨_, rfl⟩
  case storeRegs => unfold execStoreRegs State.endStore; split <;> exact ⟨_, rfl⟩
  case loadRegs => unfold execLoadRegs; split <;> exact ⟨_, rfl⟩

/-- What the end of a block write gives: the memory of the range write, and the advance or the error. -/
theorem endStore_next {s t : State} {w : InstrWord} {r : Memory × Option CoreError} (h : s.endStore w r = .next t) :
    (r.2 = none ∧ t = ({ s with mem := r.1 } : State).advance) ∨
      ∃ e, r.2 = some e ∧ t = ({ s with mem := r.1 } : State).raise (some w) e := by
  unfold State.endStore at h
  split at h
  · next hr => cases h; exact .inl ⟨hr, rfl⟩
  · next e hr => cases h; exact .inr ⟨e, hr, rfl⟩

/-- The parts that no instruction writes. -/
theorem exec_keeps {i : Instr} {s t : State} (h : exec i s = .next t) :
    t.keys = s.keys ∧ t.config = s.config ∧ t.mem.banks = s.mem.banks ∧ t.timers.acc = s.timers.acc ∧
      t.timers.lastTick = s.timers.lastTick ∧ t.video.listeners = s.video.listeners ∧
      t.video.nextId = s.video.nextId ∧ t.discarded = s.discarded := by
  cases i <;> simp only [exec] at h
  case ret => unfold execRet at h; split at h <;> cases h <;> simp
  case call => unfold execCall at h; split at h <;> cases h <;> simp
  case draw => unfold execDraw at h; split at h <;> cases h <;> simp
  case skipKeyDown => unfold execSkipKeyDown at h; split at h <;> cases h <;> simp
  case skipKeyUp => unfold execSkipKeyUp at h; split at h <;> cases h <;> simp
  case waitKey => unfold execWaitKey at h; split at h <;> cases h <;> simp
  case loadRegs => unfold execLoadRegs at h; split at h <;> cases h <;> simp
  case bcd =>
    rcases endStore_next h with ⟨-, rfl⟩ | ⟨e, -, rfl⟩ <;> simp [Memory.writeRange_banks]
  case storeRegs =>
    rcases endStore_next h with ⟨-, rfl⟩ | ⟨e, -, rfl⟩ <;> simp [Memory.writeRange_banks]
  all_goals (cases h; exact ⟨rfl, rfl, rfl, rfl, rfl, rfl, rfl, rfl⟩)

/-- What any instruction does to the memory: nothing, or a range write (R93, R94). -/
theorem exec_mem {i : Instr} {s t : State} (h : exec i s = .next t) :
    t.mem = s.mem ∨ ∃ vs, t.mem = (s.mem.writeRange (s.indexed 0) vs).1 := by
  cases i <;> simp only [exec] at h
  case ret => unfold execRet at h; split at h <;> cases h <;> exact .inl rfl
  case call => unfold execCall at h; split at h <;> cases h <;> exact .inl rfl
  case draw => unfold execDraw at h; split at h <;> cases h <;> exact .inl rfl
  case skipKeyDown => unfold execSkipKeyDown at h; split at h <;> cases h <;> exact .inl rfl
  case skipKeyUp => unfold execSkipKeyUp at h; split at h <;> cases h <;> exact .inl rfl
  case waitKey => unfold execWaitKey at h; split at h <;> cases h <;> exact .inl rfl
  case loadRegs => unfold execLoadRegs at h; split at h <;> cases h <;> exact .inl (by simp)
  case bcd x => rcases endStore_next h with ⟨-, rfl⟩ | ⟨e, -, rfl⟩ <;> exact .inr ⟨_, rfl⟩
  case storeRegs x => rcases endStore_next h with ⟨-, rfl⟩ | ⟨e, -, rfl⟩ <;> exact .inr ⟨_, rfl⟩
  all_goals (cases h; exact .inl rfl)

/-- What any instruction does to the stack: nothing, a push below the limit, or a pop (R68, R69). -/
theorem exec_stack {i : Instr} {s t : State} (h : exec i s = .next t) :
    t.stack = s.stack ∨ (t.stack = s.pc :: s.stack ∧ s.config.stackLimit ≠ some s.stack.length) ∨
      ∃ a, s.stack = a :: t.stack := by
  cases i <;> simp only [exec] at h
  case ret =>
    unfold execRet at h
    split at h
    · cases h; exact .inl rfl
    · next a rest hs => cases h; exact .inr (.inr ⟨a, hs⟩)
  case call =>
    unfold execCall at h
    split at h
    · cases h; exact .inl rfl
    · next hf => cases h; exact .inr (.inl ⟨rfl, by simpa [State.stackFull] using hf⟩)
  case draw => unfold execDraw at h; split at h <;> cases h <;> exact .inl rfl
  case skipKeyDown => unfold execSkipKeyDown at h; split at h <;> cases h <;> exact .inl rfl
  case skipKeyUp => unfold execSkipKeyUp at h; split at h <;> cases h <;> exact .inl rfl
  case waitKey => unfold execWaitKey at h; split at h <;> cases h <;> exact .inl rfl
  case loadRegs => unfold execLoadRegs at h; split at h <;> cases h <;> exact .inl (by simp)
  case bcd => rcases endStore_next h with ⟨-, rfl⟩ | ⟨e, -, rfl⟩ <;> exact .inl rfl
  case storeRegs => rcases endStore_next h with ⟨-, rfl⟩ | ⟨e, -, rfl⟩ <;> exact .inl rfl
  all_goals (cases h; exact .inl rfl)

/-- Whether any instruction raised an error: `fault` is as it was, or it holds a record with pc and the word, and pc
is unchanged (R118, R119). -/
theorem exec_fault {i : Instr} {s t : State} (h : exec i s = .next t) :
    t.fault = s.fault ∨
      t.pc = s.pc ∧ ∃ e, t.fault = some { error := e, pc := s.pc, word := some (encode i) } := by
  cases i <;> simp only [exec] at h
  case nativeCall => cases h; exact .inr ⟨rfl, _, rfl⟩
  case ret =>
    unfold execRet at h
    split at h <;> cases h
    · exact .inr ⟨rfl, _, rfl⟩
    · exact .inl rfl
  case call =>
    unfold execCall at h
    split at h <;> cases h
    · exact .inr ⟨rfl, _, rfl⟩
    · exact .inl rfl
  case draw =>
    unfold execDraw at h
    split at h <;> cases h
    · exact .inr ⟨rfl, _, rfl⟩
    · exact .inl rfl
  case skipKeyDown =>
    unfold execSkipKeyDown at h
    split at h <;> cases h
    · exact .inr ⟨rfl, _, rfl⟩
    · exact .inl rfl
  case skipKeyUp =>
    unfold execSkipKeyUp at h
    split at h <;> cases h
    · exact .inr ⟨rfl, _, rfl⟩
    · exact .inl rfl
  case waitKey => unfold execWaitKey at h; split at h <;> cases h <;> exact .inl rfl
  case loadRegs =>
    unfold execLoadRegs at h
    split at h <;> cases h
    · exact .inl (by simp)
    · exact .inr ⟨by simp, _, by simp; rfl⟩
  case bcd =>
    rcases endStore_next h with ⟨-, rfl⟩ | ⟨e, -, rfl⟩
    · exact .inl rfl
    · exact .inr ⟨rfl, _, rfl⟩
  case storeRegs =>
    rcases endStore_next h with ⟨-, rfl⟩ | ⟨e, -, rfl⟩
    · exact .inl rfl
    · exact .inr ⟨rfl, _, rfl⟩
  all_goals (cases h; exact .inl rfl)

/-! ### A tick -/

/-- A tick that is admitted: the machine is not discarded and has raised no error (R60, R135). -/
theorem step_admitted {s : State} (hd : s.discarded = false) (hf : s.fault = none) :
    step s = match s.fetchDecode with
      | .error (e, w) => .next (s.beginTick.raise w e)
      | .ok i => exec i s.beginTick := by
  unfold step
  rw [hd, hf]
  rfl

/-- What a tick that is admitted does: after the timers and the debounce, an error of fetch or decode, or the
instruction (R60). -/
theorem step_cases {s t : State} (h : step s = .next t) :
    s.discarded = false ∧ s.fault = none ∧
      ((∃ e w, s.fetchDecode = .error (e, w) ∧ t = s.beginTick.raise w e) ∨
        ∃ i, s.fetchDecode = .ok i ∧ exec i s.beginTick = .next t) := by
  cases hd : s.discarded with
  | true => unfold step at h; rw [hd] at h; cases h
  | false =>
    cases hf : s.fault with
    | some e => unfold step at h; rw [hd, hf] at h; cases h
    | none =>
      refine ⟨rfl, rfl, ?_⟩
      rw [step_admitted hd hf] at h
      split at h
      · next e w he => cases h; exact .inl ⟨e, w, he, rfl⟩
      · next i hi => exact .inr ⟨i, hi, h⟩

/-! ### Host operations -/

/-- A machine that is there serves the operation. -/
theorem State.host_eq_serve {s : State} (hd : s.discarded = false) (op : HostOp) : s.host op = s.serve op := by
  simp only [State.host, hd]

/-- A discarded machine serves none (R135). -/
theorem State.host_discarded {s : State} (hd : s.discarded = true) (op : HostOp) : s.host op = (s, .gone) := by
  simp only [State.host, hd]

/-! ### Keys -/

@[simp] theorem inputTick_getElem (keys : Vector KeyState 16) (k : Fin 16) :
    (inputTick keys)[k] = keys[k].debounce := by
  simp [inputTick]

theorem keyDown_eq (keys : Vector KeyState 16) (k : Fin 16) : keyDown keys k = decide (keys[k] ≠ .released) := by
  unfold keyDown
  cases h : keys[k] <;> rfl

/-! ### The word placed is the word fetched -/

/-- The bank behind an address that is exposed, in terms of the bank list. -/
theorem find_map_cover (banks : List Bank) (a b : Addr) (f : Bank → Bank) (hr : ∀ k, (f k).range = k.range) :
    (banks.map fun k => if k.range.covers a then f k else k).find? (fun k => k.range.covers b) =
      (banks.find? fun k => k.range.covers b).map fun k => if k.range.covers a then f k else k := by
  rw [List.find?_map]
  congr 2
  funext k
  rw [Function.comp_apply]
  split <;> simp [hr]

theorem Memory.find_expose (m : Memory) (a : Addr) :
    ∃ b, (m.expose a).find a = some b ∧ b.cap ≠ .writeOnly ∧ b.offset a < b.len := by
  unfold Memory.expose
  split
  · next h =>
    refine ⟨{ name := "placed", range := ⟨a, a⟩, cap := .readWrite, len := 1, init := [] }, ?_, by simp,
      by simp [Bank.offset]⟩
    simp only [Memory.find] at h
    simp only [Memory.find, List.find?_append, h]
    simp [MemRange.covers]
  · next b h =>
    simp only [Memory.find] at h
    have hc : b.range.covers a = true := by simpa using List.find?_some h
    refine ⟨{ b with cap := b.cap.readable, len := max b.len (b.offset a + 1) }, ?_, ?_, ?_⟩
    · simp only [Memory.find]
      rw [find_map_cover m.banks a a
        (fun k => { k with cap := k.cap.readable, len := max k.len (k.offset a + 1) }) (fun _ => rfl), h]
      simp [hc]
    · cases b.cap <;> simp [Capability.readable]
    · simp [Bank.offset]

/-- What can be read stays readable, with its byte, when another address is exposed. -/
theorem Memory.read_expose {m : Memory} {b : Addr} {v : Byte} (a : Addr) (h : m.read b = .ok v) :
    (m.expose a).read b = .ok v := by
  obtain ⟨k, hf, hc, hl, hp⟩ := (m.read_ok_iff b v).1 h
  rw [Memory.read_ok_iff]
  unfold Memory.expose
  split
  · next hn =>
    have e : (m.banks ++ [({ name := "placed", range := ⟨a, a⟩, cap := .readWrite, len := 1, init := [] } : Bank)]).find?
        (fun k => k.range.covers b) = some k := by
      rw [List.find?_append, show m.banks.find? (fun k => k.range.covers b) = some k from hf]; rfl
    refine ⟨k, e, hc, hl, ?_⟩
    rw [← hp]
    simp only [Memory.peek, Memory.unlisted, Memory.find, e, show m.banks.find? (fun k => k.range.covers b) = some k from hf]
  · next j hj =>
    have e := find_map_cover m.banks a b
      (fun k => { k with cap := k.cap.readable, len := max k.len (k.offset a + 1) }) (fun _ => rfl)
    rw [show m.banks.find? (fun k => k.range.covers b) = some k from hf, Option.map_some] at e
    refine ⟨_, e, ?_, ?_, ?_⟩
    · split
      · cases k.cap <;> simp [Capability.readable]
      · exact hc
    · split
      · simp only [Bank.offset] at hl ⊢; omega
      · exact hl
    · rw [← hp]
      simp only [Memory.peek, Memory.unlisted, Memory.find, e,
        show m.banks.find? (fun k => k.range.covers b) = some k from hf]
      split <;> rfl

theorem Memory.read_place (m : Memory) (a : Addr) (v : Byte) : (m.place a v).read a = .ok v := by
  obtain ⟨b, hf, hc, hl⟩ := m.find_expose a
  rw [Memory.read_ok_iff]
  exact ⟨b, hf, hc, hl, by rw [Memory.place, Memory.peek_poke, if_pos rfl]⟩

theorem Memory.read_place_of_ne {m : Memory} {a b : Addr} {w : Byte} (h : b ≠ a) (v : Byte) (hr : m.read b = .ok w) :
    (m.place a v).read b = .ok w := by
  rw [Memory.place, Memory.read_poke_of_ne _ _ h]
  exact Memory.read_expose a hr

theorem Memory.fetch_placeWord (m : Memory) (a : Addr) (w : InstrWord) : (m.placeWord a w).fetch a = .ok w := by
  have hne : a ≠ a + 1 := by
    intro h
    have := congrArg BitVec.toNat h
    simp only [BitVec.toNat_add, BitVec.toNat_ofNat, BitVec.ofNat_eq_ofNat] at this
    omega
  have h1 : (m.placeWord a w).read a = .ok (w.extractLsb' 8 8) :=
    Memory.read_place_of_ne hne _ (m.read_place a _)
  have h2 : (m.placeWord a w).read (a + 1) = .ok (w.extractLsb' 0 8) := Memory.read_place _ _ _
  simp only [Memory.fetch, h1, h2, wordOfBytes_split]

/-- `withFetchWord` makes the very next step run the instruction, from any state. -/
theorem step_withFetchWord (s : State) {w : InstrWord} {i : Instr} (h : decode w = .ok i) :
    step (s.withFetchWord 16 w.toNat) = exec i (s.withFetchWord 16 w.toNat).beginTick := by
  have hw : BitVec.ofNat 16 (w.toNat % 2 ^ 16) = w := by
    apply BitVec.eq_of_toNat_eq; simp [w.isLt]
  have hf : (s.withFetchWord 16 w.toNat).fetchDecode = .ok i := by
    simp only [State.fetchDecode, State.withFetchWord, hw, Memory.fetch_placeWord, h]
  rw [step_admitted rfl rfl, hf]

end Sys2Proof.Machine
end

