-- ==== Sys2Proof/Laws/Routing.lean ====
section
/-! SUPPORT. Which bank an address is routed to, range accesses that fail part of the way, and what setup does to memory. -/

namespace Sys2Proof.Machine

/-! ### Ranges -/

theorem MemRange.covers_iff (r : MemRange) (a : Addr) : r.covers a = true ↔ r.min ≤ a ∧ a ≤ r.max := by
  simp [MemRange.covers]

theorem MemRange.overlaps_iff (r q : MemRange) : r.overlaps q = true ↔ r.min ≤ q.max ∧ q.min ≤ r.max := by
  simp [MemRange.overlaps]

/-- Two ranges share an address exactly when they overlap (R34). -/
theorem MemRange.share_iff {r q : MemRange} (hr : r.min ≤ r.max) (hq : q.min ≤ q.max) :
    (∃ a, r.covers a = true ∧ q.covers a = true) ↔ r.overlaps q = true := by
  simp only [MemRange.covers_iff, MemRange.overlaps_iff, BitVec.le_def] at *
  constructor
  · rintro ⟨a, h⟩; omega
  · intro h
    by_cases hc : r.min.toNat ≤ q.min.toNat
    · exact ⟨q.min, by omega⟩
    · exact ⟨r.min, by omega⟩

/-- Where no two banks overlap, an address is routed to the bank that covers it (R34, R36). -/
theorem Memory.find_of_routed {m : Memory} (h : m.routed) {a : Addr} {b : Bank} (hb : b ∈ m.banks)
    (hc : b.range.covers a = true) :
    m.find a = some b := by
  obtain ⟨hp, hw⟩ := h
  unfold Memory.find
  have : ∀ l : List Bank, (∀ k ∈ l, k.range.min ≤ k.range.max) → l.Pairwise (fun b c => b.range.overlaps c.range = false) → b ∈ l → l.find? (fun b => b.range.covers a) = some b := by
    intro l
    induction l with
    | nil => intro _ _ h; simp at h
    | cons k l ih =>
      intro hw hp hm
      rw [List.pairwise_cons] at hp
      rcases List.mem_cons.1 hm with rfl | hm'
      · rw [List.find?_cons_of_pos (by simpa using hc)]
      · have hno : ¬ k.range.covers a = true := by
          intro hk
          have := (MemRange.share_iff (hw k (by simp)) (hw b (by simp [hm']))).1 ⟨a, hk, hc⟩
          rw [hp.1 b hm'] at this; cases this
        rw [List.find?_cons_of_neg (by simpa using hno)]
        exact ih (fun k hk => hw k (List.mem_cons_of_mem _ hk)) hp.2 hm'
  exact this _ hw hp hb

theorem Memory.find_none {m : Memory} {a} (h : ∀ b ∈ m.banks, b.range.covers a = false) : m.find a = none := by
  unfold Memory.find
  rw [List.find?_eq_none]
  intro b hb; simp [h b hb]

/-! ### Range accesses that fail part of the way (R40) -/

/-- Whether a write fails, and how, depends on the banks and the address alone. -/
theorem Memory.write_error_congr {m m' : Memory} (hb : m'.banks = m.banks) {a v v' e}
    (h : m.write a v = .error e) : m'.write a v' = .error e := by
  unfold Memory.write Memory.find at *
  rw [hb]
  revert h
  cases m.banks.find? _ with
  | none => exact id
  | some k => dsimp only; split; exact id; split; exact id; intro h; cases h

/-- A range write whose k-th byte is the first to fail leaves the bytes before it written. -/
theorem Memory.writeRange_fail (m : Memory) (a : Addr) (vs : List Byte) (k : Nat) (hk : k < vs.length) {v e}
   (hok : (m.writeRange a (vs.take k)).2 = none) (he : m.write (a + BitVec.ofNat 16 k) v = .error e) :
   m.writeRange a vs = ((m.writeRange a (vs.take k)).1, some e) := by
  induction k generalizing m a vs with
  | zero =>
    cases vs with
    | nil => simp at hk
    | cons b bs =>
      rw [Memory.writeRange, Memory.write_error_congr rfl (by simpa using he)]
      rfl
  | succ k ih =>
    cases vs with
    | nil => simp at hk
    | cons b bs =>
      rw [List.take_succ_cons, Memory.writeRange] at hok ⊢
      rw [Memory.writeRange]
      cases hw : m.write a b with
      | error e => rw [hw] at hok; simp at hok
      | ok m' =>
        rw [hw] at hok
        dsimp only at hok ⊢
        refine ih m' (a + 1) bs (by simpa using hk) hok ?_
        rw [addr_step]
        exact Memory.write_error_congr (Memory.write_banks hw) he

/-- A range read whose bytes can all be read gives them. -/
theorem Memory.readRange_of (m : Memory) (a : Addr) (n : Nat) (b : Nat → Byte)
    (h : ∀ k < n, m.read (a + BitVec.ofNat 16 k) = .ok (b k)) :
   m.readRange a n = ((List.range n).map b, none) := by
  induction n generalizing a b with
  | zero => rfl
  | succ n ih =>
    rw [Memory.readRange, show m.read a = .ok (b 0) by simpa using h 0 (by omega)]
    dsimp only
    rw [ih (a+1) (fun k => b (k+1)) (fun k hk => by rw [addr_step]; exact h (k+1) (by omega)), List.range_succ_eq_map]
    simp [Function.comp_def]

/-- A range read whose k-th byte is the first to fail gives the bytes before it, and its error. -/
theorem Memory.readRange_fail (m : Memory) (a : Addr) (n k : Nat) (b : Nat → Byte) (hk : k < n)
    (h : ∀ j < k, m.read (a + BitVec.ofNat 16 j) = .ok (b j)) {e} (he : m.read (a + BitVec.ofNat 16 k) = .error e) :
   m.readRange a n = ((List.range k).map b, some e) := by
  induction k generalizing a b n with
  | zero =>
    cases n with
    | zero => omega
    | succ n => rw [Memory.readRange, show m.read a = .error e by simpa using he]; rfl
  | succ k ih =>
    cases n with
    | zero => omega
    | succ n =>
      rw [Memory.readRange, show m.read a = .ok (b 0) by simpa using h 0 (by omega)]
      dsimp only
      rw [ih (a+1) n (fun k => b (k+1)) (by omega) (fun k hk => by rw [addr_step]; exact h (k+1) (by omega)) (by rw [addr_step]; exact he), List.range_succ_eq_map]
      simp [Function.comp_def]

/-! ### Setup -/

/-- An accepted registration appends a bank that overlaps none (R34). -/
theorem Memory.register_ok {m m' : Memory} {b} (h : m.register b = .ok m') : m' =
    { m with banks := m.banks ++ [b] } ∧ ∀ k ∈ m.banks, k.range.overlaps b.range = false := by
  unfold Memory.register at h
  split at h
  · next hc =>
    cases h
    refine ⟨rfl, fun k hk => ?_⟩
    rw [Memory.conflicts, List.filter_eq_nil_iff] at hc
    simpa using hc k hk
  · cases h

/-- Registering banks appends them in order, keeps routes unique and writes no byte. -/
theorem Memory.registerAll_ok {m m' : Memory} {bs : List Bank} (hr : m.routed)
    (hb : ∀ b ∈ bs, b.range.min ≤ b.range.max) (h : m.registerAll bs = .ok m') :
    m'.routed ∧ m'.cells = m.cells ∧ m'.banks = m.banks ++ bs := by
  induction bs generalizing m with
  | nil => cases h; exact ⟨hr, rfl, by simp⟩
  | cons b bs ih =>
    rw [Memory.registerAll] at h
    split at h
    · cases h
    · next m1 h1 =>
      obtain ⟨rfl, hov⟩ := Memory.register_ok h1
      have := ih (m := { m with banks := m.banks ++ [b] }) ⟨?_, ?_⟩ (fun b hb' => hb b (by simp [hb'])) h
      · simpa using this
      · refine List.pairwise_append.2 ?_
        exact ⟨hr.1, by simp, by simpa using hov⟩
      · intro k hk
        rcases List.mem_append.1 hk with hk | hk
        · exact hr.2 k hk
        · rw [List.mem_singleton] at hk; subst hk; exact hb _ (by simp)

theorem Memory.fill_banks (m : Memory) (a vs) : (m.fill a vs).banks = m.banks := by
  induction vs generalizing m a with
  | nil => rfl
  | cons b bs ih => rw [Memory.fill, ih]; rfl

theorem Memory.peek_fill_of_outside : ∀ (vs : List Byte) (m : Memory)
    (a b : Addr), (∀ k < vs.length, b ≠ a + BitVec.ofNat 16 k) → (m.fill a vs).peek b = m.peek b := by
    intro vs
    induction vs with
    | nil => intros; rfl
    | cons v vs ih =>
      intro m a b h
      rw [Memory.fill, ih _ _ _ (fun k hk => by rw [addr_step]; exact h (k+1) (by simpa using hk)), Memory.peek_poke, if_neg (by simpa using h 0 (by simp))]

theorem Memory.peek_fill_of_inside (m : Memory) (a : Addr) (vs : List Byte) (hl : vs.length ≤ 65536)
    (k : Nat) (hk : k < vs.length) :
    (m.fill a vs).peek (a + BitVec.ofNat 16 k) = vs[k] := by
  induction vs generalizing m a k with
  | nil => simp at hk
  | cons v vs ih =>
    rw [Memory.fill]
    simp only [List.length_cons] at hl hk
    cases k with
    | zero =>
      rw [Memory.peek_fill_of_outside, Memory.peek_poke, if_pos (by simp)]; rfl
      intro j hj he
      have h := congrArg BitVec.toNat he
      simp only [BitVec.toNat_add, BitVec.toNat_ofNat, BitVec.ofNat_eq_ofNat] at h
      have := a.isLt
      omega
    | succ j => rw [← addr_step]; exact ih _ _ (by omega) j (by omega)

/-- Filling bytes that stores have keeps the canonical form. -/
theorem Memory.wf_fill {m : Memory} {a : Addr} {vs : List Byte} (h : m.wf)
    (hk : ∀ k < vs.length, m.backed (a + BitVec.ofNat 16 k) = true) : (m.fill a vs).wf := by
  induction vs generalizing m a with
  | nil => exact h
  | cons b bs ih =>
    rw [Memory.fill]
    exact ih (m := m.poke a b) (a := a+1) (Memory.wf_poke h (by simpa using hk 0 (by simp)) _) (fun k hk' => by
      rw [addr_step]; exact hk (k+1) (by simpa using hk'))

/-- Loading an image fills the bank over 0x0200 where the image fits, and does nothing where it is empty and there is no
such bank (R139). -/
theorem Memory.loadImage_ok {m m' : Memory} {image : List Byte} (h : m.loadImage image = .ok m') :
    (m.find pcReset = none ∧ image = [] ∧ m' = m) ∨
    ∃ b, m.find pcReset = some b ∧ image.length ≤ b.room pcReset ∧ m' = m.fill pcReset image := by
  unfold Memory.loadImage at h
  split at h
  · next hf =>
    split at h
    · next hi => cases h; exact .inl ⟨hf, hi, rfl⟩
    · cases h
  · next b hf =>
    split at h
    · next hl => cases h; exact .inr ⟨b, hf, hl, rfl⟩
    · cases h

section
variable (b : Bank)
@[simp] theorem Bank.atSetup_name : b.atSetup.name = b.name := by unfold Bank.atSetup; split <;> rfl
@[simp] theorem Bank.atSetup_range : b.atSetup.range = b.range := by unfold Bank.atSetup; split <;> rfl
@[simp] theorem Bank.atSetup_cap : b.atSetup.cap = b.cap := by unfold Bank.atSetup; split <;> rfl
@[simp] theorem Bank.atSetup_len : b.atSetup.len = b.len := by unfold Bank.atSetup; split <;> rfl

/-- The program bank is registered with no initial bytes (R30). -/
theorem Bank.atSetup_init_program (h : b.range.covers pcReset = true) : b.atSetup.init = [] := by
  rw [Bank.atSetup, if_pos h]

/-- Every other bank is registered as it is. -/
theorem Bank.atSetup_of_other (h : b.range.covers pcReset = false) : b.atSetup = b := by
  rw [Bank.atSetup, if_neg (by simp [h])]
end

/-- What a machine that setup creates is: the reset values, and the memory of the banks, no two of which overlap, with
the image loaded (R138). -/
theorem State.create_ok {config : Config} {font : List Byte} {banks : List Bank} {image : List Byte} {s : State}
    (hb : ∀ b ∈ banks, b.range.min ≤ b.range.max) (h : State.create config font banks image = .ok s) :
    ∃ m m' : Memory, m.routed ∧ m.cells = [] ∧ m.banks = fontBank font :: banks.map Bank.atSetup ∧
      m.loadImage image = .ok m' ∧ s = { State.reset with config := config, mem := m' } := by
  unfold State.create at h
  split at h
  · cases h
  · next m hm =>
    have hr := Memory.registerAll_ok (m := { banks := [], cells := [] }) (by simp [Memory.routed]) (by
      intro b hb'
      rcases List.mem_cons.1 hb' with rfl | hb'
      · simp [fontBank]
      · obtain ⟨k, hk, rfl⟩ := List.mem_map.1 hb'
        simpa using hb k hk) hm
    split at h
    · cases h
    · next m' hl => cases h; exact ⟨m, m', hr.1, hr.2.1, hr.2.2, hl, rfl⟩

end Sys2Proof.Machine
end

