-- ==== Sys2Proof/Laws/Frames.lean ====
section
/-! SUPPORT. What the common shapes of an instruction give: a new pc, one register, a register and the flag, an error, a block written or read. -/

open Sys2Proof.Laws

namespace Sys2Proof.Machine

/-! ### Registers and pc -/

theorem Completes.of_pc {i s a} {post : State → Prop} (h : exec i s = .next {s with pc := a})
    (hp : post {s with pc := a}) : Completes i s {.pc} post :=
  ⟨_, h, hp, keepsAllBut_pc s a⟩

theorem Completes.of_setReg {i s r x} {post : State → Prop} (h : exec i s = .next (s.setReg r x).advance)
    (hp : post (s.setReg r x).advance) : Completes i s {.pc, .reg r} post :=
  ⟨_, h, hp, keepsAllBut_setReg s r x⟩

theorem Completes.of_setReg_setFlag {i s r x b} {post : State → Prop}
    (h : exec i s = .next ((s.setReg r x).setFlag b).advance) (hp : post ((s.setReg r x).setFlag b).advance) :
    Completes i s {.pc, .reg r, .reg vF} post :=
  ⟨_, h, hp, keepsAllBut_setReg_setFlag s r x b⟩

theorem Raises.of_fail {i s e} (h : exec i s = s.fail (encode i) e) : Raises i s e ∅ (fun _ => True) := by
  refine ⟨_, h, rfl, trivial, (keepsAllBut_raise s _ _).mono (by simp)⟩

theorem keepsAllBut_stack_pc (s : State) (st a) : KeepsAllBut {.pc, .stack} s {s with stack := st, pc := a} := by
  intro p hp
  cases p <;> first | exact rfl | exact ⟨rfl, rfl⟩ | exact absurd (by simp) hp

theorem keepsAllBut_index_pc (s : State) (st a) : KeepsAllBut {.pc, .index} s {s with i := st, pc := a} := by
  intro p hp
  cases p <;> first | exact rfl | exact ⟨rfl, rfl⟩ | exact absurd (by simp) hp

theorem keepsAllBut_beginTick_raise (s : State) (w e) :
    KeepsAllBut {.delay, .sound, .clock, .keys, .output, .draws, .fault} s (s.beginTick.raise w e) := by
  intro p hp
  cases p <;> first | exact rfl | exact ⟨rfl, rfl⟩ | exact absurd (by simp) hp

theorem toNat_flagByte (b : Bool) : (flagByte b).toNat = if b then 1 else 0 := by cases b <;> rfl

/-! ### Blocks -/

theorem CanWrite_iff (s : State) (a : Addr) : CanWrite s a ↔ ∃ b, s.mem.find a = some b ∧ b.cap ≠ .readOnly
    ∧ b.offset a < b.len := by
  constructor
  · intro h
    obtain ⟨m, hm⟩ := h 0
    obtain ⟨b, h1, h2, h3, -⟩ := (s.mem.write_ok_iff a 0 m).1 hm
    exact ⟨b, h1, h2, h3⟩
  · rintro ⟨b, h1, h2, h3⟩ v
    exact ⟨_, (s.mem.write_ok_iff a v _).2 ⟨b, h1, h2, h3, rfl⟩⟩

theorem Holds.of_peek {s t : State} {a v} (hb : t.mem.banks = s.mem.banks) (h : t.mem.peek a = v) :
    Holds s t a v := by
  refine ⟨h, fun old ho => ?_⟩
  obtain ⟨k, h1, h2, h3, h4⟩ := (s.mem.read_ok_iff a old).1 ho
  refine (t.mem.read_ok_iff a v).2 ⟨k, ?_, h2, h3, h⟩
  simpa [Memory.find, hb] using h1

theorem State.indexed_zero (s : State) : s.indexed 0 = s.i := by simp [State.indexed]

theorem State.regBlock_length (s : State) (x : Reg) : (s.regBlock x).length = x.val + 1 := by
  simp [State.regBlock]; try omega

theorem State.regBlock_getElem (s : State) (x : Reg) (k : Nat)
    (h : k < (s.regBlock x).length) : (s.regBlock x)[k] = s.reg (Fin.ofNat 16 k) := by
  have h' := h
  rw [State.regBlock_length] at h
  have : k < 16 := by omega
  simp [State.regBlock, State.reg, Nat.mod_eq_of_lt this]

theorem keepsAllBut_writeRange (s : State) (vs : List Byte) (n : Nat) (hn : vs.length ≤ n) (a : Addr) :
    KeepsAllBut ({.pc} ∪ bytesAt s.i n) s {s with mem := (s.mem.writeRange s.i vs).1, pc := a} := by
  intro p hp
  cases p with
  | pc => exact absurd (by simp) hp
  | byte b =>
    refine Memory.read_writeRange_of_outside s.mem s.i vs b fun k hk e => hp (.inr ⟨k, by omega, by rw [e]⟩)
  | banks => exact Memory.writeRange_banks _ _ _
  | _ => first | exact rfl | exact ⟨rfl, rfl⟩

theorem keepsAllBut_writeRange_raise (s : State) (vs : List Byte) (n : Nat) (hn : vs.length ≤ n) (w e) :
    KeepsAllBut ({.fault} ∪ bytesAt s.i n) s (({s with mem := (s.mem.writeRange s.i vs).1} : State).raise w e) := by
  intro p hp
  cases p with
  | fault => exact absurd (by simp) hp
  | byte b =>
    refine Memory.read_writeRange_of_outside s.mem s.i vs b fun k hk e => hp (.inr ⟨k, by omega, by rw [e]⟩)
  | banks => exact Memory.writeRange_banks _ _ _
  | _ => first | exact rfl | exact ⟨rfl, rfl⟩

/-- A block write whose bytes can all be written completes. -/
theorem endStore_of_canWrite (s : State) (w vs) (h : ∀ k < vs.length, CanWrite s (s.i + BitVec.ofNat 16 k)) :
    s.endStore w (s.mem.writeRange (s.indexed 0) vs) = .next {s with mem := (s.mem.writeRange s.i vs).1, pc := s.pc + 2}
     ∧ (s.mem.writeRange s.i vs).2 = none := by
  have : (s.mem.writeRange s.i vs).2 = none := (s.mem.writeRange_ok_iff s.i vs).2 fun k hk => (CanWrite_iff s _).1 (h k hk)
  refine ⟨?_, this⟩
  rw [State.indexed_zero]; unfold State.endStore; rw [this]; rfl

/-- A block write whose k-th byte is the first that cannot be written raises its error. -/
theorem endStore_of_fail (s : State) (w vs k v e) (hk : k < vs.length)
    (h : ∀ j < k, CanWrite s (s.i + BitVec.ofNat 16 j))
    (he : s.mem.write (s.i + BitVec.ofNat 16 k) v = .error e) :
    s.endStore w (s.mem.writeRange (s.indexed 0) vs) = .next (({s with mem := (s.mem.writeRange s.i (vs.take k)).1} : State).raise (some w) e)
    ∧ (s.mem.writeRange s.i (vs.take k)).2 = none := by
  have h2 : (s.mem.writeRange s.i (vs.take k)).2 = none := (s.mem.writeRange_ok_iff s.i _).2 fun j hj => (CanWrite_iff s _).1 (h j (by simp at hj; omega))
  refine ⟨?_, h2⟩
  rw [State.indexed_zero, Memory.writeRange_fail s.mem s.i vs k hk h2 he]
  rfl

theorem State.loadFrom_reg_of_not_le (s : State) (x : Reg) (bs : List Byte) (hl : bs.length ≤ x.val + 1)
    (r : Reg) (h : ¬ r ≤ x) :
   (s.loadFrom 0 bs).reg r = s.reg r := by
  have : r.val > x.val := by rw [Fin.le_def] at h; omega
  rw [State.loadFrom_reg _ _ _ (by omega), if_neg (by omega)]

end Sys2Proof.Machine
end

