-- ==== Sys2Proof/Laws/PerInstr.lean ====
section
/-! SUPPORT. Statements made per instruction: the family RoundTrip, decoding an encoded well-formed instruction gives it back. -/

namespace Sys2Proof.Laws.RoundTrip

/-- Decoding the word of a well-formed instruction gives it back. -/
def Statement (i : Instr) : Prop := i.wellFormed = true → decode (encode i) = .ok i

theorem nop : Statement .nop := fun _ => rfl
theorem clearScreen : Statement .clearScreen := fun _ => rfl
theorem ret : Statement .ret := fun _ => rfl

theorem nativeCall (nnn : Imm12) : Statement (.nativeCall nnn) := by
  intro h
  simp only [Instr.wellFormed, Bool.and_eq_true, bne_iff_ne, ne_eq] at h
  obtain ⟨⟨h0, h1⟩, h2⟩ := h
  have key : ∀ k : Imm12, nnn ≠ k → fmtA 0x0#4 nnn ≠ fmtA 0x0#4 k := by
    intro k hk he
    apply hk
    rw [← fieldNNN_fmtA 0x0#4 nnn, he, fieldNNN_fmtA]
  have e0 : fmtA 0x0#4 nnn ≠ 0x0000#16 := key _ h0
  have e1 : fmtA 0x0#4 nnn ≠ 0x00E0#16 := key _ h1
  have e2 : fmtA 0x0#4 nnn ≠ 0x00EE#16 := key _ h2
  simp [encode, decode, decodeByOp, e0, e1, e2]

section
variable (x y n : Fin 16) (nn : Byte) (nnn : Imm12)

theorem jump : Statement (.jump nnn) := fun _ => by simp [encode, decode_of_op_ne_zero, decodeByOp]
theorem call : Statement (.call nnn) := fun _ => by simp [encode, decode_of_op_ne_zero, decodeByOp]
theorem setIndex : Statement (.setIndex nnn) := fun _ => by simp [encode, decode_of_op_ne_zero, decodeByOp]
theorem jumpOffset : Statement (.jumpOffset nnn) := fun _ => by simp [encode, decode_of_op_ne_zero, decodeByOp]
theorem skipEqImm : Statement (.skipEqImm x nn) := fun _ => by simp [encode, decode_of_op_ne_zero, decodeByOp]
theorem skipNeImm : Statement (.skipNeImm x nn) := fun _ => by simp [encode, decode_of_op_ne_zero, decodeByOp]
theorem assignImm : Statement (.assignImm x nn) := fun _ => by simp [encode, decode_of_op_ne_zero, decodeByOp]
theorem addImm : Statement (.addImm x nn) := fun _ => by simp [encode, decode_of_op_ne_zero, decodeByOp]
theorem random : Statement (.random x nn) := fun _ => by simp [encode, decode_of_op_ne_zero, decodeByOp]
theorem skipEqReg : Statement (.skipEqReg x y) := fun _ => by simp [encode, decode_of_op_ne_zero, decodeByOp]
theorem skipNeReg : Statement (.skipNeReg x y) := fun _ => by simp [encode, decode_of_op_ne_zero, decodeByOp]
theorem assign : Statement (.assign x y) := fun _ => by simp [encode, decode_of_op_ne_zero, decodeByOp, decodeArith]
theorem or : Statement (.or x y) := fun _ => by simp [encode, decode_of_op_ne_zero, decodeByOp, decodeArith]
theorem and : Statement (.and x y) := fun _ => by simp [encode, decode_of_op_ne_zero, decodeByOp, decodeArith]
theorem xor : Statement (.xor x y) := fun _ => by simp [encode, decode_of_op_ne_zero, decodeByOp, decodeArith]
theorem add : Statement (.add x y) := fun _ => by simp [encode, decode_of_op_ne_zero, decodeByOp, decodeArith]
theorem sub : Statement (.sub x y) := fun _ => by simp [encode, decode_of_op_ne_zero, decodeByOp, decodeArith]
theorem shiftRight : Statement (.shiftRight x y) := fun _ => by simp [encode, decode_of_op_ne_zero, decodeByOp, decodeArith]
theorem subReverse : Statement (.subReverse x y) := fun _ => by simp [encode, decode_of_op_ne_zero, decodeByOp, decodeArith]
theorem shiftLeft : Statement (.shiftLeft x y) := fun _ => by simp [encode, decode_of_op_ne_zero, decodeByOp, decodeArith]
theorem draw : Statement (.draw x y n) := fun _ => by simp [encode, decode_of_op_ne_zero, decodeByOp]
theorem skipKeyDown : Statement (.skipKeyDown x) := fun _ => by simp [encode, decode_of_op_ne_zero, decodeByOp, decodeKey]
theorem skipKeyUp : Statement (.skipKeyUp x) := fun _ => by simp [encode, decode_of_op_ne_zero, decodeByOp, decodeKey]
theorem getDelay : Statement (.getDelay x) := fun _ => by simp [encode, decode_of_op_ne_zero, decodeByOp, decodeMisc]
theorem waitKey : Statement (.waitKey x) := fun _ => by simp [encode, decode_of_op_ne_zero, decodeByOp, decodeMisc]
theorem setDelay : Statement (.setDelay x) := fun _ => by simp [encode, decode_of_op_ne_zero, decodeByOp, decodeMisc]
theorem setSound : Statement (.setSound x) := fun _ => by simp [encode, decode_of_op_ne_zero, decodeByOp, decodeMisc]
theorem addIndex : Statement (.addIndex x) := fun _ => by simp [encode, decode_of_op_ne_zero, decodeByOp, decodeMisc]
theorem fontChar : Statement (.fontChar x) := fun _ => by simp [encode, decode_of_op_ne_zero, decodeByOp, decodeMisc]
theorem bcd : Statement (.bcd x) := fun _ => by simp [encode, decode_of_op_ne_zero, decodeByOp, decodeMisc]
theorem storeRegs : Statement (.storeRegs x) := fun _ => by simp [encode, decode_of_op_ne_zero, decodeByOp, decodeMisc]
theorem loadRegs : Statement (.loadRegs x) := fun _ => by simp [encode, decode_of_op_ne_zero, decodeByOp, decodeMisc]

end

end Sys2Proof.Laws.RoundTrip
end

