-- ==== Sys2Proof/Laws/Timers.lean ====
section
/-! SUPPORT. The timers: the loop of R125 in closed form. -/

namespace Sys2Proof.Machine

theorem timerPeriod_pos : 0 < timerPeriod := by norm_num [timerPeriod]

/-- A number of periods is held exactly when the accumulator reaches that many. -/
theorem le_periodsIn_iff {acc : ℚ} (h : 0 ≤ acc) (n : ℕ) : n ≤ periodsIn acc ↔ n * timerPeriod ≤ acc := by
  have h0 : (0 : ℤ) ≤ (acc * 60).floor := by
    rw [Rat.le_floor_iff]; push_cast; positivity
  unfold periodsIn timerPeriod
  rw [Int.le_toNat h0, Rat.le_floor_iff]
  push_cast
  constructor <;> intro h <;> linarith

theorem decrement_eq (b : Byte) : (decrement b).toNat = b.toNat - 1 := by
  unfold decrement
  split
  · next h => subst h; rfl
  · next h =>
    have : b.toNat ≠ 0 := fun e => h (BitVec.eq_of_toNat_eq e)
    rw [BitVec.toNat_sub]
    have := b.isLt
    simp only [BitVec.toNat_ofNat, BitVec.ofNat_eq_ofNat]
    omega

/-- A whole number n of periods held by the accumulator runs the loop n times. -/
theorem Timers.loop_eq (n : ℕ) (t : Timers) (h : n * timerPeriod ≤ t.acc) :
    (Timers.loop n t).dt.toNat = t.dt.toNat - n ∧ (Timers.loop n t).st.toNat = t.st.toNat - n ∧
      (Timers.loop n t).acc = t.acc - n * timerPeriod ∧ (Timers.loop n t).lastTick = t.lastTick := by
  induction n generalizing t with
  | zero => simp [Timers.loop]
  | succ n ih =>
    push_cast at h
    have hp : timerPeriod ≤ t.acc := by
      have : 0 ≤ (n : ℚ) * timerPeriod := mul_nonneg (Nat.cast_nonneg n) timerPeriod_pos.le
      linarith
    rw [Timers.loop, if_pos hp]
    obtain ⟨h1, h2, h3, h4⟩ := ih
      { t with dt := decrement t.dt, st := decrement t.st, acc := t.acc - timerPeriod } (by
        show (n : ℚ) * timerPeriod ≤ t.acc - timerPeriod
        linarith)
    rw [h1, h2, h3, h4]
    simp only [decrement_eq]
    refine ⟨by omega, by omega, ?_, trivial⟩
    push_cast
    ring

theorem elapsedSeconds_nonneg (e : Elapsed) : 0 ≤ elapsedSeconds e := by
  unfold elapsedSeconds; positivity

theorem periodsIn_mul_le {acc : ℚ} (h : 0 ≤ acc) : (periodsIn acc : ℚ) * timerPeriod ≤ acc :=
  (le_periodsIn_iff h _).1 le_rfl

theorem lt_periodsIn_succ_mul {acc : ℚ} (h : 0 ≤ acc) : acc < ((periodsIn acc : ℚ) + 1) * timerPeriod := by
  by_contra hc
  have : periodsIn acc + 1 ≤ periodsIn acc := (le_periodsIn_iff h _).2 (by push_cast; linarith)
  omega

/-- The timer step in closed form, from an accumulator that is not negative. -/
theorem Timers.tick_eq (t : Timers) (e : ℚ) (h : 0 ≤ t.acc + e) :
    (t.tick e).dt.toNat = t.dt.toNat - periodsIn (t.acc + e) ∧
      (t.tick e).st.toNat = t.st.toNat - periodsIn (t.acc + e) ∧
      (t.tick e).acc = t.acc + e - periodsIn (t.acc + e) * timerPeriod ∧
      (t.tick e).lastTick = t.lastTick + e :=
  Timers.loop_eq _ { t with acc := t.acc + e, lastTick := t.lastTick + e } (periodsIn_mul_le h)

theorem periodsIn_unique {acc : ℚ} (h : 0 ≤ acc) {n : ℕ} (h1 : n * timerPeriod ≤ acc)
    (h2 : acc < (n+1) * timerPeriod) : periodsIn acc = n := by
  apply le_antisymm
  · by_contra hc
    have := (le_periodsIn_iff h (n+1)).1 (by omega)
    push_cast at this; linarith
  · exact (le_periodsIn_iff h n).2 h1

/-- After any tick the accumulator is less than a period (R22). -/
theorem Timers.tick_acc (t : Timers) (e : ℚ) (h : 0 ≤ t.acc + e) : 0 ≤ (t.tick e).acc
    ∧ (t.tick e).acc < timerPeriod := by
  obtain ⟨_, _, h3, _⟩ := t.tick_eq e h
  have a := periodsIn_mul_le h
  have b := lt_periodsIn_succ_mul h
  rw [h3]
  constructor <;> linarith

theorem Timers.ext_toNat {t u : Timers} (h1 : t.dt.toNat = u.dt.toNat) (h2 : t.st.toNat = u.st.toNat)
    (h3 : t.acc = u.acc) (h4 : t.lastTick = u.lastTick) : t = u := by
  obtain ⟨a, b, c, d⟩ := t; obtain ⟨a', b', c', d'⟩ := u
  simp at h1 h2 h3 h4
  rw [BitVec.eq_of_toNat_eq h1, BitVec.eq_of_toNat_eq h2, h3, h4]

/-- Two ticks do what one tick of their whole duration does (R126). -/
theorem Timers.tick_tick (t : Timers) (e f : ℚ) (h0 : 0 ≤ t.acc) (he : 0 ≤ e) (hf : 0 ≤ f) : (t.tick e).tick f =
    t.tick (e + f) := by
  have h1 : 0 ≤ t.acc + e := by linarith
  obtain ⟨a1, a2, a3, a4⟩ := t.tick_eq e h1
  have hacc := (Timers.tick_acc t e h1).1
  have h2 : 0 ≤ (t.tick e).acc + f := by linarith
  obtain ⟨b1, b2, b3, b4⟩ := (t.tick e).tick_eq f h2
  have h3 : 0 ≤ t.acc + (e + f) := by linarith
  obtain ⟨c1, c2, c3, c4⟩ := t.tick_eq (e+f) h3
  have key : periodsIn (t.acc + (e+f)) = periodsIn (t.acc + e) + periodsIn ((t.tick e).acc + f) := by
    apply periodsIn_unique h3
    · have hq := periodsIn_mul_le h2
      generalize periodsIn ((t.tick e).acc + f) = q at hq ⊢
      push_cast
      linarith
    · have hq := lt_periodsIn_succ_mul h2
      generalize periodsIn ((t.tick e).acc + f) = q at hq ⊢
      push_cast
      linarith
  refine Timers.ext_toNat ?_ ?_ ?_ ?_
  · rw [b1, a1, c1, key]; omega
  · rw [b2, a2, c2, key]; omega
  · rw [b3, a3, c3, ← a3, key]; push_cast; linarith
  · rw [b4, a4, c4]; ring

theorem Timers.tick_zero (t : Timers) (h0 : 0 ≤ t.acc) (h1 : t.acc < timerPeriod) : t.tick 0 = t := by
  obtain ⟨c1, c2, c3, c4⟩ := t.tick_eq 0 (by linarith)
  have : periodsIn (t.acc + 0) = 0 := periodsIn_unique (by linarith) (by push_cast; linarith) (by push_cast; linarith)
  rw [this] at c1 c2 c3
  exact Timers.ext_toNat (by omega) (by omega) (by rw [c3]; push_cast; ring) (by rw [c4]; ring)

end Sys2Proof.Machine
end

