-- ==== Sys2Proof/Tests/Slice0.lean ====
section
/-! SUPPORT. The model's own tests: ill-formed terms refused, words written out from the spec's encodings, one-step
tests whose expected results are the vectors of 95_test_vectors.md (each named in its comment), and for each statement
with hypotheses a state and operands that meet them. -/

open Sys2Proof Sys2Proof.Machine

namespace Sys2Proof.Tests

/-! ### Helpers -/

/-- The reset state with bytes at an address of the program bank. -/
def load (a : Addr) (bytes : List Byte) : State := { State.reset with mem := State.reset.mem.fill a bytes }

/-- The state a step or an instruction gives. -/
def after (o : Host.Outcome State Fault Refusal) : State :=
  match o with
  | .next t => t
  | .fault _ => State.reset
  | .refused _ => State.reset

/-- A state whose next tick takes num / (pred + 1) seconds. -/
def pace (num pred : Nat) (s : State) : State := { s with draws := { s.draws with elapsedQueue := [⟨num, pred⟩] } }

def vy : Config := { Config.default with shiftUsesVy := true }
def strict : Config := { Config.default with oobPolicy := .strict }
def oneDeep : Config := { Config.default with stackLimit := some 1 }

/-- The error of the record in `fault`. -/
def raised (s : State) : Option CoreError := s.fault.map ErrorRecord.error

/-! ### WellFormed: the native calls that are other words -/

theorem test_wellFormed_refuses_000 : (Instr.nativeCall 0x000#12).wellFormed = false := by decide
theorem test_wellFormed_refuses_0E0 : (Instr.nativeCall 0x0E0#12).wellFormed = false := by decide
theorem test_wellFormed_refuses_0EE : (Instr.nativeCall 0x0EE#12).wellFormed = false := by decide
theorem test_wellFormed_accepts : (Instr.nativeCall 0x0EF#12).wellFormed = true ∧ (Instr.jump 0x000#12).wellFormed = true := by
  decide

/-! ### Decoding: one word of every row, written out from R54 and R55 -/

/-- S-1, S-2, S-6, V-DEC-1, V-DEC-6, V-DEC-19. -/
theorem test_decode_control :
    decode 0b0000000000000000#16 = .ok .nop ∧ decode 0b0000000011100001#16 = .ok (.nativeCall 0x0E1#12) ∧
    decode 0b0000000011100000#16 = .ok .clearScreen ∧ decode 0b0000000011101110#16 = .ok .ret ∧
    decode 0b0001001000110100#16 = .ok (.jump 0x234#12) ∧ decode 0b0010101010111100#16 = .ok (.call 0xABC#12) ∧
    decode 0b1011111111111111#16 = .ok (.jumpOffset 0xFFF#12) := by decide

/-- V-DEC-7, V-DEC-8, V-DEC-16, V-DEC-22, V-DEC-23; 4XNN by R55. -/
theorem test_decode_skips :
    decode 0b0011111100000000#16 = .ok (.skipEqImm 0xF 0x00#8) ∧
    decode 0b0100001101000010#16 = .ok (.skipNeImm 3 0x42#8) ∧
    decode 0b0101000100100000#16 = .ok (.skipEqReg 1 2) ∧ decode 0b1001101010110000#16 = .ok (.skipNeReg 0xA 0xB) ∧
    decode 0b1110000010011110#16 = .ok (.skipKeyDown 0) ∧ decode 0b1110111110100001#16 = .ok (.skipKeyUp 0xF) := by
  decide

/-- S-3, V-DEC-14, V-DEC-15, V-DEC-20; the other rows by R55. -/
theorem test_decode_arithmetic :
    decode 0b0110101000010010#16 = .ok (.assignImm 0xA 0x12#8) ∧
    decode 0b0111000111111111#16 = .ok (.addImm 1 0xFF#8) ∧ decode 0b1000000100100000#16 = .ok (.assign 1 2) ∧
    decode 0b1000000100100001#16 = .ok (.or 1 2) ∧ decode 0b1000000100100010#16 = .ok (.and 1 2) ∧
    decode 0b1000000100100011#16 = .ok (.xor 1 2) ∧ decode 0b1000000100100100#16 = .ok (.add 1 2) ∧
    decode 0b1000000100100101#16 = .ok (.sub 1 2) ∧ decode 0b1000101010110110#16 = .ok (.shiftRight 0xA 0xB) ∧
    decode 0b1000000100100111#16 = .ok (.subReverse 1 2) ∧ decode 0b1000111111111110#16 = .ok (.shiftLeft 0xF 0xF) ∧
    decode 0b1100001111111111#16 = .ok (.random 3 0xFF#8) := by decide

/-- V-DEC-18, V-DEC-21, V-DEC-27, V-DEC-28, V-DEC-30, V-DEC-31, V-DEC-33 to V-DEC-37. -/
theorem test_decode_memory_display_timers :
    decode 0b1010000000000000#16 = .ok (.setIndex 0x000#12) ∧ decode 0b1101000000000000#16 = .ok (.draw 0 0 0) ∧
    decode 0b1111001000001010#16 = .ok (.waitKey 2) ∧ decode 0b1111000000011110#16 = .ok (.addIndex 0) ∧
    decode 0b1111000001100101#16 = .ok (.loadRegs 0) ∧ decode 0b1111111101010101#16 = .ok (.storeRegs 0xF) ∧
    decode 0b1111000100101001#16 = .ok (.fontChar 1) ∧ decode 0b1111001000110011#16 = .ok (.bcd 2) ∧
    decode 0b1111001100011000#16 = .ok (.setSound 3) ∧ decode 0b1111010000010101#16 = .ok (.setDelay 4) ∧
    decode 0b1111010100000111#16 = .ok (.getDelay 5) := by decide

/-- S-4, S-5, V-DEC-9, V-DEC-12, V-DEC-17, V-DEC-25, V-DEC-32: the illegal words are refused by name. -/
theorem test_decode_illegal :
    decode 0x8009#16 = .error (.illegalWord 0x8009#16) ∧ decode 0xE000#16 = .error (.illegalWord 0xE000#16) ∧
    decode 0x5121#16 = .error (.illegalWord 0x5121#16) ∧ decode 0x800D#16 = .error (.illegalWord 0x800D#16) ∧
    decode 0x9AB1#16 = .error (.illegalWord 0x9AB1#16) ∧ decode 0xE0A2#16 = .error (.illegalWord 0xE0A2#16) ∧
    decode 0xFFFF#16 = .error (.illegalWord 0xFFFF#16) ∧ decode 0xF000#16 = .error (.illegalWord 0xF000#16) := by
  decide

/-- A byte too few is refused by name; two bytes are read high byte first (R43). -/
theorem test_decodeBytes :
    decodeBytes [0x12] = .error .truncated ∧ decodeBytes [0x12, 0x34] = .ok (.jump 0x234#12, []) := by decide

theorem test_decodeTableWord :
    decodeTableWord 16 0xD123 = some (.draw 1 2 3) ∧ decodeTableWord 16 0x8009 = none := by decide

/-! ### One step each: control (V-CF, V-SK) -/

/-- V-CF-12. -/
theorem test_nop : (after (exec .nop State.reset)).pc = 0x0202#16 := by decide

/-- V-CF-11. -/
theorem test_nativeCall :
    raised (after (exec (.nativeCall 0x123#12) State.reset)) = some (.nativeCall 0x0123#16) ∧
    (after (exec (.nativeCall 0x123#12) State.reset)).pc = 0x0200#16 := by decide

/-- V-CF-1. -/
theorem test_jump : (after (exec (.jump 0x234#12) State.reset)).pc = 0x0234#16 := by decide

/-- V-CF-3. -/
theorem test_call :
    (after (exec (.call 0x300#12) { State.reset with pc := 0x0204#16 })).stack = [0x0204#16] ∧
    (after (exec (.call 0x300#12) { State.reset with pc := 0x0204#16 })).pc = 0x0300#16 := by decide

/-- V-CF-18. -/
theorem test_call_overflow :
    raised (after (exec (.call 0x400#12)
      { State.reset with pc := 0x0300#16, stack := [0x0200#16], config := oneDeep })) =
      some (.stackOverflow 0x0300#16) := by decide

/-- V-CF-7. -/
theorem test_ret :
    (after (exec .ret { State.reset with stack := [0x0220#16, 0x0210#16] })).pc = 0x0222#16 ∧
    (after (exec .ret { State.reset with stack := [0x0220#16, 0x0210#16] })).stack = [0x0210#16] := by decide

/-- V-CF-5, S-16. -/
theorem test_ret_empty : raised (after (exec .ret State.reset)) = some (.emptyStack 0x0200#16) := by decide

/-- V-CF-9, V-CF-10: V0 is added, not V[X], and the sum passes 12 bits. -/
theorem test_jumpOffset :
    (after (exec (.jumpOffset 0xFFF#12) (State.reset.setReg 0 0xFF#8))).pc = 0x10FE#16 ∧
    (after (exec (.jumpOffset 0x500#12) ((State.reset.setReg 0 0x05#8).setReg 5 0xAA#8))).pc = 0x0505#16 := by decide

/-- V-SK-1, V-SK-2. -/
theorem test_skipEqImm :
    (after (exec (.skipEqImm 3 0x42#8) (State.reset.setReg 3 0x42#8))).pc = 0x0204#16 ∧
    (after (exec (.skipEqImm 3 0x43#8) (State.reset.setReg 3 0x42#8))).pc = 0x0202#16 := by decide

/-- V-SK-3, V-SK-4. -/
theorem test_skipNeImm :
    (after (exec (.skipNeImm 3 0x42#8) (State.reset.setReg 3 0x42#8))).pc = 0x0202#16 ∧
    (after (exec (.skipNeImm 3 0x00#8) (State.reset.setReg 3 0x42#8))).pc = 0x0204#16 := by decide

/-- V-SK-5, V-SK-6. -/
theorem test_skipEqReg :
    (after (exec (.skipEqReg 1 2) ((State.reset.setReg 1 0x07#8).setReg 2 0x07#8))).pc = 0x0204#16 ∧
    (after (exec (.skipEqReg 1 2) ((State.reset.setReg 1 0x07#8).setReg 2 0x08#8))).pc = 0x0202#16 := by decide

/-- V-SK-8, V-SK-9. -/
theorem test_skipNeReg :
    (after (exec (.skipNeReg 1 2) ((State.reset.setReg 1 0x07#8).setReg 2 0x08#8))).pc = 0x0204#16 ∧
    (after (exec (.skipNeReg 1 1) (State.reset.setReg 1 0x07#8))).pc = 0x0202#16 := by decide

/-! ### Arithmetic (V-AR) -/

/-- V-AR-1. -/
theorem test_assignImm : (after (exec (.assignImm 0xA 0x12#8) State.reset)).reg 0xA = 0x12#8 := by decide

/-- V-AR-2. -/
theorem test_addImm :
    (after (exec (.addImm 1 0x01#8) ((State.reset.setReg 1 0xFF#8).setReg vF 0x55#8))).reg 1 = 0x00#8 ∧
    (after (exec (.addImm 1 0x01#8) ((State.reset.setReg 1 0xFF#8).setReg vF 0x55#8))).reg vF = 0x55#8 := by decide

/-- V-AR-4. -/
theorem test_assign : (after (exec (.assign 1 2) (State.reset.setReg 2 0x9C#8))).reg 1 = 0x9C#8 := by decide

/-- V-AR-5. -/
theorem test_or :
    (after (exec (.or 1 2) (((State.reset.setReg 1 0x0F#8).setReg 2 0xF0#8).setReg vF 0x77#8))).reg 1 = 0xFF#8 ∧
    (after (exec (.or 1 2) (((State.reset.setReg 1 0x0F#8).setReg 2 0xF0#8).setReg vF 0x77#8))).reg vF = 0x77#8 := by
  decide

/-- V-AR-6. -/
theorem test_and : (after (exec (.and 1 2) ((State.reset.setReg 1 0xF0#8).setReg 2 0x3C#8))).reg 1 = 0x30#8 := by
  decide

/-- V-AR-7. -/
theorem test_xor : (after (exec (.xor 1 1) (State.reset.setReg 1 0xAB#8))).reg 1 = 0x00#8 := by decide

/-- S-9. -/
theorem test_add :
    (after (exec (.add 1 2) ((State.reset.setReg 1 0xFF#8).setReg 2 0x02#8))).reg 1 = 0x01#8 ∧
    (after (exec (.add 1 2) ((State.reset.setReg 1 0xFF#8).setReg 2 0x02#8))).reg vF = 0x01#8 := by decide

/-- V-AR-11: the flag is written last. -/
theorem test_add_vF : (after (exec (.add 0xF 1) ((State.reset.setReg vF 0xFF#8).setReg 1 0x01#8))).reg vF = 0x01#8 := by
  decide

/-- S-10, V-AR-13. -/
theorem test_sub :
    (after (exec (.sub 1 2) ((State.reset.setReg 1 0x01#8).setReg 2 0x02#8))).reg 1 = 0xFF#8 ∧
    (after (exec (.sub 1 2) ((State.reset.setReg 1 0x01#8).setReg 2 0x02#8))).reg vF = 0x00#8 ∧
    (after (exec (.sub 1 2) ((State.reset.setReg 1 0x42#8).setReg 2 0x42#8))).reg vF = 0x01#8 := by decide

/-- V-AR-15. -/
theorem test_subReverse :
    (after (exec (.subReverse 1 2) ((State.reset.setReg 1 0x05#8).setReg 2 0x03#8))).reg 1 = 0xFE#8 ∧
    (after (exec (.subReverse 1 2) ((State.reset.setReg 1 0x05#8).setReg 2 0x03#8))).reg vF = 0x00#8 := by decide

/-- V-AR-18, V-AR-26. -/
theorem test_shiftRight :
    (after (exec (.shiftRight 1 0) (State.reset.setReg 1 0x01#8))).reg vF = 0x01#8 ∧
    (after (exec (.shiftRight 1 2) { State.reset.setReg 2 0x81#8 with config := vy })).reg 1 = 0x40#8 := by decide

/-- V-AR-20, V-AR-25. -/
theorem test_shiftLeft :
    (after (exec (.shiftLeft 1 0) (State.reset.setReg 1 0x80#8))).reg vF = 0x01#8 ∧
    (after (exec (.shiftLeft 1 2) { State.reset.setReg 2 0x81#8 with config := vy })).reg 1 = 0x02#8 := by decide

/-- V-AR-27: the byte drawn is the one the host supplies. -/
theorem test_random :
    (after (exec (.random 1 0x0F#8) (State.reset.host (.supplyRandom [0xAB#8])).1)).reg 1 = 0x0B#8 := by decide

/-! ### Index register and memory (V-MEM) -/

/-- V-MEM-1. -/
theorem test_setIndex : (after (exec (.setIndex 0x300#12) State.reset)).i = 0x0300#16 := by decide

/-- V-MEM-3. -/
theorem test_addIndex :
    (after (exec (.addIndex 2) { State.reset.setReg 2 0x01#8 with i := 0xFFFF#16 })).i = 0x0000#16 ∧
    (after (exec (.addIndex 2) { State.reset.setReg 2 0x01#8 with i := 0xFFFF#16 })).reg vF = 0x00#8 := by decide

/-- V-MEM-5. -/
theorem test_fontChar : (after (exec (.fontChar 4) (State.reset.setReg 4 0xFF#8))).i = 0x04FB#16 := by decide

/-- V-MEM-6. -/
theorem test_bcd :
    (after (exec (.bcd 3) { State.reset.setReg 3 0xFF#8 with i := 0x0300#16 })).mem.cells =
      [(0x0300, 0x02#8), (0x0301, 0x05#8), (0x0302, 0x05#8)] := by decide

/-- V-MEM-11: the byte before the failing one is written. -/
theorem test_bcd_partial :
    (after (exec (.bcd 3) { State.reset.setReg 3 0xFF#8 with i := 0x0FFF#16 })).mem.cells = [(0x0FFF, 0x02#8)] ∧
    raised (after (exec (.bcd 3) { State.reset.setReg 3 0xFF#8 with i := 0x0FFF#16 })) =
      some (.unmappedAddress 0x1000#16) := by decide

/-- V-MEM-12. -/
theorem test_storeRegs :
    (after (exec (.storeRegs 1)
      { ((State.reset.setReg 0 0x01#8).setReg 1 0x02#8).setReg 2 0x03#8 with i := 0x0300#16 })).mem.cells =
      [(0x0300, 0x01#8), (0x0301, 0x02#8)] := by decide

/-- V-MEM-18, V-MEM-10. -/
theorem test_storeRegs_errors :
    raised (after (exec (.storeRegs 0) { State.reset with i := 0x0050#16 })) = some (.unmappedAddress 0x0050#16) ∧
    raised (after (exec (.storeRegs 0) State.reset)) = some (.unsupportedAccess .write 0x0000#16 "font") := by
  decide

/-- V-MEM-14. -/
theorem test_loadRegs :
    (after (exec (.loadRegs 2) State.reset)).reg 0 = 0xF0#8 ∧ (after (exec (.loadRegs 2) State.reset)).reg 2 = 0x90#8 := by
  decide

/-- V-MEM-15: the registers before the failing read are loaded. -/
theorem test_loadRegs_partial :
    (after (exec (.loadRegs 2) { State.reset.setReg 2 0x11#8 with i := 0x004E#16 })).reg 1 = 0x80#8 ∧
    (after (exec (.loadRegs 2) { State.reset.setReg 2 0x11#8 with i := 0x004E#16 })).reg 2 = 0x11#8 ∧
    raised (after (exec (.loadRegs 2) { State.reset.setReg 2 0x11#8 with i := 0x004E#16 })) =
      some (.unmappedAddress 0x0050#16) := by decide

/-! ### Display (V-DRW, V-VID) -/

/-- V-DRW-11. -/
theorem test_clearScreen :
    (after (exec .clearScreen (State.reset.host (.set 5 5 true)).1)).video.pixel 5 5 = false ∧
    (after (exec .clearScreen State.reset)).video.events = [.cleared] := by decide

/-- V-DRW-1: glyph 0. -/
theorem test_draw_glyph :
    (after (exec (.draw 0 1 5) State.reset)).video.fb[(0 : Nat)] = 0xF0#8 ∧
    (after (exec (.draw 0 1 5) State.reset)).video.fb[(8 : Nat)] = 0x90#8 ∧
    (after (exec (.draw 0 1 5) State.reset)).video.events.length = 14 ∧
    (after (exec (.draw 0 1 5) State.reset)).reg vF = 0x00#8 := by decide

/-- V-DRW-9: a collision. -/
theorem test_draw_collision :
    (after (exec (.draw 0 1 1)
      { ((load 0x0300#16 [0xC0#8]).host (.set 0 0 true)).1 with i := 0x0300#16 })).reg vF = 0x01#8 ∧
    (after (exec (.draw 0 1 1)
      { ((load 0x0300#16 [0xC0#8]).host (.set 0 0 true)).1 with i := 0x0300#16 })).video.fb[(0 : Nat)] = 0x40#8 := by
  decide

/-- V-VID-4, V-VID-5, V-DRW-13. -/
theorem test_host_video :
    (State.reset.host (.set 5 5 true)).2 = .bit false ∧
    ((State.reset.host (.set 5 5 true)).1.host (.flip 5 5)).2 = .bit true ∧
    (({ State.reset with config := strict } : State).host (.get 64 0)).2 = .error (.frameBounds 64 0) := by
  decide

/-- V-VID-2: no id is handed out twice. -/
theorem test_host_listeners :
    ((((State.reset.host (.attach ⟨1⟩)).1.host (.attach ⟨2⟩)).1.host (.detach 0)).1.host (.attach ⟨3⟩)).2 = .id 2 := by
  decide

/-- R106, R135: discard tears down in registration order, and is last. -/
theorem test_host_discard :
    ∃ s, (((State.reset.host (.attach ⟨1⟩)).1.host (.attach ⟨2⟩)).1.host .discard).1 = s ∧
      s.video.calls = [.teardown 0, .teardown 1] ∧ step s = .fault .afterDiscard ∧ s.host (.press 0) = (s, .gone) :=
  ⟨_, rfl, rfl, rfl, rfl⟩

/-! ### Keys and timers (V-KEY, V-TMR) -/

/-- V-KEY-2, V-KEY-5 (the debounce of R60 has no effect on a Held key). -/
theorem test_skipKeyDown :
    (after (exec (.skipKeyDown 1) ((State.reset.host (.hold 3)).1.setReg 1 0x03#8))).pc = 0x0204#16 ∧
    raised (after (exec (.skipKeyDown 1) (State.reset.setReg 1 0x10#8))) = some (.keyIndexOutOfRange 0x10) := by
  decide

/-- V-KEY-3, V-KEY-4. -/
theorem test_skipKeyUp :
    (after (exec (.skipKeyUp 1) ((State.reset.host (.hold 3)).1.setReg 1 0x03#8))).pc = 0x0202#16 ∧
    (after (exec (.skipKeyUp 1) (State.reset.setReg 1 0x03#8))).pc = 0x0204#16 := by decide

/-- V-KEY-7, V-KEY-8. -/
theorem test_waitKey :
    (after (exec (.waitKey 2) State.reset)).pc = 0x0200#16 ∧
    (after (exec (.waitKey 2) ((State.reset.host (.hold 9)).1.host (.hold 5)).1)).reg 2 = 0x05#8 ∧
    (after (exec (.waitKey 2) ((State.reset.host (.hold 9)).1.host (.hold 5)).1)).pc = 0x0202#16 := by decide

/-- V-KEY-1: a key that is only pressed is released before the instruction runs. -/
theorem test_step_debounce :
    (after (step (pace 0 0 (((load 0x0200#16 [0xE1#8, 0x9E#8]).host (.press 3)).1.setReg 1 0x03#8)))).pc = 0x0202#16 := by
  decide +kernel

/-- V-TMR-6: LD V3, DT reads DT after the timer step. -/
theorem test_step_getDelay :
    (after (step (pace 1 59
      { load 0x0200#16 [0xF3#8, 0x07#8] with timers := { dt := 5, st := 0, acc := 0, lastTick := 0 } }))).reg 3 = 0x04#8 := by
  decide +kernel

/-- V-TMR-7: LD DT, V3 does not reset the accumulator. -/
theorem test_step_setDelay :
    (after (step (pace 0 0
      { (load 0x0200#16 [0xF3#8, 0x15#8]).setReg 3 0x03#8 with
        timers := { dt := 0, st := 0, acc := 1 / 120, lastTick := 0 } }))).timers.acc = 1 / 120 := by decide +kernel

/-- V-TMR-9. -/
theorem test_setSound : (after (exec (.setSound 4) (State.reset.setReg 4 0xFF#8))).timers.st = 0xFF#8 := by decide

/-- V-TMR-4, V-TMR-5. -/
theorem test_timers_tick :
    Timers.tick { dt := 2, st := 5, acc := 0, lastTick := 0 } (3 / 60) = { dt := 0, st := 2, acc := 0, lastTick := 3 / 60 } ∧
    (Timers.tick { dt := 0, st := 0, acc := 0, lastTick := 0 } (5 / 60 + 1 / 120)).acc = 1 / 120 := by decide +kernel

/-- V-TMR-10: the timer step runs before the error. -/
theorem test_step_illegal :
    raised (after (step (pace 1 59
      { load 0x0200#16 [0xFF#8, 0xFF#8] with timers := { dt := 5, st := 0, acc := 0, lastTick := 0 } }))) =
        some (.decodeError 0xFFFF#16) ∧
    (after (step (pace 1 59
      { load 0x0200#16 [0xFF#8, 0xFF#8] with timers := { dt := 5, st := 0, acc := 0, lastTick := 0 } }))).timers.dt =
        0x04#8 := by decide +kernel

/-! ### The step, the mapper and setup (V-CF, V-MAP) -/

/-- V-CF-14: the second fetch byte is unmapped. -/
theorem test_step_fetch_second_byte :
    (after (step (pace 0 0 { load 0x0FFF#16 [0x12#8] with pc := 0x0FFF#16 }))).fault =
      some { error := .unmappedAddress 0x1000#16, pc := 0x0FFF#16, word := none } := by decide

/-- V-CF-16: the second byte of a word at 0xFFFF is the byte at 0. -/
theorem test_fetch_wraps :
    Memory.fetch
      { banks := defaultMap standardFont ++
          [{ name := "hi", range := ⟨0xFF00#16, 0xFFFF#16⟩, cap := .readWrite, len := 256, init := [] }],
        cells := [(0xFFFF, 0x12#8)] } 0xFFFF#16 = .ok 0x12F0#16 := by decide

/-- `withFetchWord` puts an instruction where the next step runs it. -/
theorem test_withFetchWord :
    (after (step (pace 0 0 (State.reset.withFetchWord 16 0x6A12)))).reg 0xA = 0x12#8 := by decide

/-- A step from a state that holds an error record stops (R29). -/
theorem test_step_after_error :
    step { State.reset with fault := some { error := .emptyStack 0x0200#16, pc := 0x0200#16, word := none } } =
      .fault (.afterError { error := .emptyStack 0x0200#16, pc := 0x0200#16, word := none }) := rfl

/-- V-MAP-1, V-MAP-3, V-MAP-4: overlap names the banks, adjacent ranges do not overlap. -/
theorem test_register :
    Memory.register { banks := [fontBank standardFont], cells := [] }
        { programBank with range := ⟨0x0040#16, 0x0FFF#16⟩ } = .error (.mapConflict "program" ["font"]) ∧
    Memory.register State.reset.mem { programBank with name := "y", range := ⟨0x0FFF#16, 0x1FFF#16⟩ } =
      .error (.mapConflict "y" ["program"]) ∧
    (Memory.register State.reset.mem { programBank with name := "z", range := ⟨0x1000#16, 0x10FF#16⟩ }).toOption.isSome := by
  decide

/-- V-MAP-5, V-MAP-6, V-MAP-7, S-8. -/
theorem test_mapper :
    Memory.read ⟨[{ programBank with name := "c", range := ⟨0x2000#16, 0x2FFF#16⟩, len := 0x800 }], []⟩
      0x2800#16 = .error (.storeBounds 0x2800#16 "c") ∧
    (State.reset.mem.write 0x0010#16 0x00#8).isOk = false ∧
    (load 0x0200#16 [0x6A#8, 0x12#8]).mem.read 0x0200#16 = .ok 0x6A#8 ∧
    (load 0x0200#16 [0x6A#8, 0x12#8]).mem.read 0x0202#16 = .ok 0x00#8 ∧
    State.reset.mem.read 0x1000#16 = .error (.unmappedAddress 0x1000#16) := by decide

/-- A program bank with initial bytes. -/
def initialised : Bank := { programBank with init := [0xAA#8, 0xBB#8] }

/-- A bank above the program bank. -/
def high : Bank := { programBank with name := "high", range := ⟨0x1000#16, 0x10FF#16⟩, len := 256, init := [0x77#8] }

/-- R30, R139: past the image a program bank is 0x00, whatever its initial bytes. -/
theorem test_setup_rest_is_zero :
    (State.create Config.default standardFont [initialised] [0x12#8]).map
      (fun s => (s.mem.peek 0x0200#16, s.mem.peek 0x0201#16)) = .ok (0x12#8, 0x00#8) := by decide

/-- The numbers of the error kinds (R117). -/
theorem test_error_codes :
    (CoreError.frameBounds 64 0).kind.code = 4 ∧ (CoreError.nativeCall 0x0123#16).kind.code = 3 ∧
    (CoreError.stackOverflow 0x0300#16).kind.code = 8 := by decide

/-! ### Every row runs as the first instruction after reset, whatever is drawn -/

/-- Whether the very next step from reset, with the word placed, gives a next state. -/
def runsFromReset (w : Nat) : Bool :=
  match step (State.reset.withFetchWord 16 w) with
  | .next _ => true
  | .fault _ => false
  | .refused _ => false

theorem test_rows_run_from_reset :
    ([0x0000, 0x0123, 0x00E0, 0x00EE, 0x1234, 0x2345, 0x3142, 0x4142, 0x5120, 0x6142, 0x7142, 0x8120] ++
      [0x8121, 0x8122, 0x8123, 0x8124, 0x8125, 0x8126, 0x8127, 0x812E, 0x9120, 0xA123, 0xB123, 0xC1FF] ++
      [0xD125, 0xE19E, 0xE1A1, 0xF107, 0xF10A, 0xF115, 0xF118, 0xF11E, 0xF129, 0xF133, 0xF155, 0xF165]).all
      runsFromReset = true := by decide +kernel

/-! ### Witnesses: states and operands that meet the hypotheses of the statements, a witness for each clause -/

/-- DecodeInvertsEncode. -/
theorem witness_decodeInvertsEncode :
    (Instr.nativeCall 0x001#12).wellFormed = true ∧ (Instr.nativeCall 0xFFF#12).wellFormed = true ∧
    (Instr.draw 0xF 0xF 0xF).wellFormed = true := by decide

/-- EncodeInvertsDecode. -/
theorem witness_encodeInvertsDecode : decode 0x0FFF#16 = .ok (.nativeCall 0xFFF#12) := by decide

/-- IllegalWordsAreExactlyThese: a word of each clause, and a legal word beside it. -/
theorem witness_illegalWords :
    (fieldOp 0x5121#16 = 0x5#4 ∧ fieldN 0x5121#16 ≠ 0 ∧ fieldN 0x5120#16 = 0) ∧
    (fieldOp 0x812F#16 = 0x8#4 ∧ (fieldN 0x812F#16).val ∈ [0x8, 0x9, 0xA, 0xB, 0xC, 0xD, 0xF] ∧
      (fieldN 0x812E#16).val ∉ [0x8, 0x9, 0xA, 0xB, 0xC, 0xD, 0xF]) ∧
    (fieldOp 0x912F#16 = 0x9#4 ∧ fieldN 0x912F#16 ≠ 0) ∧
    (fieldOp 0xE19D#16 = 0xE#4 ∧ fieldNN 0xE19D#16 ∉ [0x9E#8, 0xA1#8] ∧ fieldNN 0xE19E#16 ∈ [0x9E#8, 0xA1#8]) ∧
    (fieldOp 0xF166#16 = 0xF#4 ∧
      fieldNN 0xF166#16 ∉ [0x07#8, 0x0A#8, 0x15#8, 0x18#8, 0x1E#8, 0x29#8, 0x33#8, 0x55#8, 0x65#8]) := by decide

/-- StepRunsDecodedInstruction: at an even pc, and at the last two bytes of the program bank. -/
theorem witness_step_runs :
    (State.reset.discarded = false ∧ State.reset.fault = none ∧ State.reset.mem.read State.reset.pc = .ok 0x00#8 ∧
      State.reset.mem.read (State.reset.pc + 1) = .ok 0x00#8 ∧ decode (0x00#8 ++ 0x00#8) = .ok .nop) ∧
    (load 0x0FFE#16 [0x12#8, 0x34#8]).mem.read 0x0FFE#16 = .ok 0x12#8 ∧
    (load 0x0FFE#16 [0x12#8, 0x34#8]).mem.read 0x0FFF#16 = .ok 0x34#8 ∧
    decode (0x12#8 ++ 0x34#8) = .ok (.jump 0x234#12) := by decide

/-- FetchErrorEndsTheTick: the first byte fails, the second byte fails. -/
theorem witness_fetch_error :
    State.reset.discarded = false ∧ State.reset.fault = none ∧
    State.reset.mem.read 0x1000#16 = .error (.unmappedAddress 0x1000#16) ∧
    (State.reset.mem.read 0x0FFF#16 = .ok 0x00#8 ∧
      State.reset.mem.read (0x0FFF#16 + 1) = .error (.unmappedAddress 0x1000#16)) := by decide

/-- IllegalWordEndsTheTick. -/
theorem witness_illegal_word :
    (load 0x0200#16 [0x80#8, 0x09#8]).discarded = false ∧ (load 0x0200#16 [0x80#8, 0x09#8]).fault = none ∧
    (load 0x0200#16 [0x80#8, 0x09#8]).mem.read 0x0200#16 = .ok 0x80#8 ∧
    (load 0x0200#16 [0x80#8, 0x09#8]).mem.read 0x0201#16 = .ok 0x09#8 ∧
    decode (0x80#8 ++ 0x09#8) = .error (.illegalWord 0x8009#16) := by decide

/-- TickIsAdmittedUntilAnError: each clause. -/
theorem witness_admitted :
    (State.reset.discarded = false ∧ State.reset.fault = none) ∧
    ((State.reset.raise none (.unmappedAddress 0x1000#16)).discarded = false ∧
      (State.reset.raise none (.unmappedAddress 0x1000#16)).fault =
        some { error := .unmappedAddress 0x1000#16, pc := 0x0200#16, word := none }) ∧
    (State.reset.host .discard).1.discarded = true := by decide

/-- ErrorsLeaveOnlyPartialBlocks, RegistersChangeOnlyAsListed and InstructionsWriteOnlyTheirState: an instruction that
raises and one that completes. -/
theorem witness_exec :
    (∃ t e, State.reset.fault = none ∧ exec .ret State.reset = .next t ∧ t.fault = some e) ∧
    (∃ t, exec (.add 1 2) State.reset = .next t ∧ writesReg 3 (.add 1 2) = false ∧ setsFlag (.add 1 2) = true ∧
      (3 : Reg) ≠ vF) :=
  ⟨⟨State.reset.raise (some (encode .ret)) (.emptyStack State.reset.pc), _, rfl, rfl, rfl⟩,
    (exec_answers_next _ _).imp fun _ h => ⟨h, by decide, by decide, by decide⟩⟩

/-- NativeCallRaisesUnsupported: the lowest and the highest word, and those beside the whole words. -/
theorem witness_nativeCall :
    ([0x0001#16, 0x00DF#16, 0x00E1#16, 0x00ED#16, 0x00EF#16, 0x0FFF#16].all fun w =>
      decide (fieldOp w = 0x0#4 ∧ w ≠ 0x0000#16 ∧ w ≠ 0x00E0#16 ∧ w ≠ 0x00EE#16)) = true := by decide

/-- CallPushesItsOwnAddress and CallThenReturnResumesAfterTheCall: unlimited, below the limit, at the limit. -/
theorem witness_call :
    State.reset.config.stackLimit ≠ some State.reset.stack.length ∧
    ({ State.reset with config := oneDeep } : State).config.stackLimit ≠ some State.reset.stack.length ∧
    ({ State.reset with config := oneDeep, stack := [0x0200#16] } : State).config.stackLimit =
      some ({ State.reset with config := oneDeep, stack := [0x0200#16] } : State).stack.length := by decide

/-- ReturnPopsAndAdvances: both clauses. -/
theorem witness_ret :
    State.reset.stack = [] ∧ ({ State.reset with stack := [0x0200#16] } : State).stack = 0x0200#16 :: [] := by decide

/-- RegisterSkips: a low nibble that is not 0. -/
theorem witness_skips : (1 : Fin 16) ≠ 0 ∧ (0xF : Fin 16) ≠ 0 := by decide

/-- AddWritesSumThenCarry and SubtractWritesDifferenceThenNotBorrow: a destination that is not VF, and one that is. -/
theorem witness_destination : (0xE : Reg) ≠ vF ∧ (0xF : Reg) = vF := by decide

/-- ShiftsWriteResultThenBitOut: both values of SHIFT_USES_VY. -/
theorem witness_shift :
    (0x81#8 = if (State.reset.setReg 1 0x81#8).config.shiftUsesVy = true then (State.reset.setReg 1 0x81#8).reg 2
      else (State.reset.setReg 1 0x81#8).reg 1) ∧
    (0x81#8 = if ({ State.reset.setReg 2 0x81#8 with config := vy } : State).config.shiftUsesVy = true
      then ({ State.reset.setReg 2 0x81#8 with config := vy } : State).reg 2
      else ({ State.reset.setReg 2 0x81#8 with config := vy } : State).reg 1) := by decide

/-- Every address of the program bank can be written. -/
theorem canWrite_program (s : State) (hb : s.mem = State.reset.mem) (a : Addr)
    (h : 0x0200 ≤ a.toNat ∧ a.toNat ≤ 0x0FFF) : CanWrite s a := by
  rw [CanWrite_iff, hb]
  have h1 : (fontBank standardFont).range.covers a = false := by
    rw [Bool.eq_false_iff]
    intro hc
    have := ((MemRange.covers_iff _ _).1 hc).2
    simp only [fontBank, BitVec.le_def, BitVec.toNat_ofNat] at this
    omega
  have h2 : programBank.range.covers a = true := by
    rw [MemRange.covers_iff]
    simp only [programBank, BitVec.le_def, BitVec.toNat_ofNat]
    omega
  refine ⟨programBank, ?_, by decide, ?_⟩
  · show [fontBank standardFont, programBank].find? (fun b => b.range.covers a) = some programBank
    rw [List.find?_cons_of_neg (by simp [h1]), List.find?_cons_of_pos (by simpa using h2)]
  · simp only [programBank, Bank.offset, BitVec.toNat_ofNat]
    omega

/-- BcdStoresThreeDigits, at the last three bytes of the program bank. -/
theorem witness_bcd :
    ∀ k < 3, CanWrite { State.reset with i := 0x0FFD#16 } (0x0FFD#16 + BitVec.ofNat 16 k) := by
  intro k hk
  refine canWrite_program _ rfl _ ?_
  simp only [BitVec.toNat_add, BitVec.toNat_ofNat]
  omega

/-- StoreRegistersFillsTheBlock, at the last sixteen bytes of the program bank. -/
theorem witness_storeRegs :
    ∀ k < (0xF : Reg).val + 1, CanWrite { State.reset with i := 0x0FF0#16 } (0x0FF0#16 + BitVec.ofNat 16 k) := by
  intro k hk
  have : k < 16 := hk
  refine canWrite_program _ rfl _ ?_
  simp only [BitVec.toNat_add, BitVec.toNat_ofNat]
  omega

/-- FailedBlockWriteKeepsEarlierBytes: the first byte fails (read-only, and unmapped), a later byte fails. -/
theorem witness_failed_write :
    (∃ v, State.reset.mem.write (0x0000#16 + BitVec.ofNat 16 0) v =
      .error (.unsupportedAccess .write 0x0000#16 "font")) ∧
    ((∀ j < 2, CanWrite { State.reset with i := 0x0FFE#16 } (0x0FFE#16 + BitVec.ofNat 16 j)) ∧
      ∃ v, State.reset.mem.write (0x0FFE#16 + BitVec.ofNat 16 2) v = .error (.unmappedAddress 0x1000#16)) := by
  refine ⟨⟨0, rfl⟩, fun j hj => canWrite_program _ rfl _ ?_, 0, rfl⟩
  simp only [BitVec.toNat_add, BitVec.toNat_ofNat]
  omega

/-- LoadRegistersReadsTheBlock and the Draw statements: bytes that can be read, up to the end of the font. -/
theorem witness_read_rows :
    ∀ k < 16, State.reset.mem.read (0x0040#16 + BitVec.ofNat 16 k) = .ok (standardFont.getD (64 + k) 0) := by
  decide

/-- FailedBlockLoadKeepsEarlierRegisters and FailedDrawChangesNothing: the second byte fails, the first fails. -/
theorem witness_failed_read :
    ((∀ j < 1, State.reset.mem.read (0x004F#16 + BitVec.ofNat 16 j) = .ok 0x80#8) ∧
      State.reset.mem.read (0x004F#16 + BitVec.ofNat 16 1) = .error (.unmappedAddress 0x0050#16)) ∧
    State.reset.mem.read (0x0050#16 + BitVec.ofNat 16 0) = .error (.unmappedAddress 0x0050#16) ∧
    1 ≤ (1 : Reg).val ∧ 0 ≤ (0 : Reg).val ∧ 1 < (2 : Fin 16).val := by decide

/-- A map with a bank of each capability, one of them with a store shorter than its range. -/
def mixedMap : Memory :=
  ⟨[{ name := "ro", range := ⟨0x0000#16, 0x000F#16⟩, cap := .readOnly, len := 16, init := [] },
    { name := "wo", range := ⟨0x0010#16, 0x001F#16⟩, cap := .writeOnly, len := 16, init := [] },
    { name := "rw", range := ⟨0x0020#16, 0x002F#16⟩, cap := .readWrite, len := 8, init := [] }], []⟩

/-- ReadFollowsTheCoveringBank and WriteFollowsTheCoveringBank: no two banks overlap, an address no bank covers, and
the addresses at the edges of each bank and of the short store. -/
theorem witness_mapper :
    mixedMap.routed ∧ (∀ b ∈ mixedMap.banks, b.range.covers 0x0030#16 = false) ∧
    (∃ b ∈ mixedMap.banks, b.range.min ≤ 0x000F#16 ∧ 0x000F#16 ≤ b.range.max ∧ b.cap = .readOnly) ∧
    (∃ b ∈ mixedMap.banks, b.range.min ≤ 0x0010#16 ∧ 0x0010#16 ≤ b.range.max ∧ b.cap = .writeOnly) ∧
    (∃ b ∈ mixedMap.banks, b.range.min ≤ 0x0027#16 ∧ 0x0027#16 ≤ b.range.max ∧ b.cap = .readWrite ∧
      (0x0027#16).toNat - b.range.min.toNat < b.len) ∧
    (∃ b ∈ mixedMap.banks, b.range.min ≤ 0x0028#16 ∧ 0x0028#16 ≤ b.range.max ∧ b.cap = .readWrite ∧
      b.len ≤ (0x0028#16).toNat - b.range.min.toNat) := by decide

/-- DefaultMapRoutes: the addresses where the clauses meet, each under one clause. -/
theorem witness_default_map :
    (0x004F#16).toNat ≤ 0x004F ∧ (0x0050 ≤ (0x0050#16).toNat ∧ (0x01FF#16).toNat ≤ 0x01FF) ∧
    (0x0200 ≤ (0x0200#16).toNat ∧ (0x0FFF#16).toNat ≤ 0x0FFF) ∧ 0x1000 ≤ (0x1000#16).toNat ∧
    (State.reset.mem.read 0x004F#16).isOk = true ∧ (State.reset.mem.read 0x0050#16).isOk = false ∧
    (State.reset.mem.read 0x01FF#16).isOk = false ∧ (State.reset.mem.read 0x0200#16).isOk = true ∧
    (State.reset.mem.read 0x0FFF#16).isOk = true ∧ (State.reset.mem.read 0x1000#16).isOk = false := by decide

/-- RegistrationRejectsOverlap: a bank that only touches the last one's end, and one that shares its last address. -/
theorem witness_register :
    (∀ k ∈ State.reset.mem.banks, k.range.min ≤ k.range.max) ∧
    (∀ k ∈ State.reset.mem.banks, k.range.overlaps ⟨0x1000#16, 0x10FF#16⟩ = false) ∧
    (∃ k ∈ State.reset.mem.banks, k.range.covers 0x0FFF#16 = true ∧
      MemRange.covers ⟨0x0FFF#16, 0x1FFF#16⟩ 0x0FFF#16 = true) := by decide

/-- SetupPlacesTheImage: images of 0, of 3584 and of 3585 bytes (V-MAP-8, V-MAP-9). -/
theorem witness_image :
    ([] : List Byte).length ≤ 3584 ∧ (List.replicate 3584 0x00#8).length ≤ 3584 ∧
    3584 < (List.replicate 3585 0x00#8).length := by
  simp only [List.length_replicate, List.length_nil]
  omega

/-- SetupPlacesTheImage, the clause for every bank list: a program bank with initial bytes, at its first and last
address, and another bank. -/
theorem witness_setup_banks :
    (∀ b ∈ [initialised, high], b.range.min ≤ b.range.max) ∧
    (State.create Config.default standardFont [initialised, high] [0x12#8]).isOk = true ∧
    initialised.range.covers 0x0200#16 = true ∧ initialised.range.covers 0x0FFF#16 = true ∧
    (0x0FFF#16).toNat - initialised.range.min.toNat < initialised.len ∧
    high.range.covers 0x1000#16 = true ∧ high.range.covers 0x0200#16 = false ∧
    (0x1000#16).toNat - high.range.min.toNat < high.len := by decide

/-- DrawXorsTheSprite and DrawReportsEveryFlipInOrder: heights 0 and 15, with rows that can be read. -/
theorem witness_draw :
    (∀ r < (0 : Fin 16).val, State.reset.mem.read (0x0050#16 + BitVec.ofNat 16 r) = .ok 0x00#8) ∧
    (∀ r < (0xF : Fin 16).val, State.reset.mem.read (0x0000#16 + BitVec.ofNat 16 r) = .ok (standardFont.getD r 0)) ∧
    ∃ t, exec (.draw 0 1 0xF) State.reset = .next t :=
  ⟨by decide, by decide, exec_answers_next _ _⟩

/-- DrawingTwiceRestoresTheScreen: coordinates in V0 and V1, which a draw does not write. -/
theorem witness_draw_twice :
    (∀ r < (5 : Fin 16).val, State.reset.mem.read (0x0000#16 + BitVec.ofNat 16 r) = .ok (standardFont.getD r 0)) ∧
    ∃ t u, exec (.draw 0 1 5) State.reset = .next t ∧ t.reg 0 = State.reset.reg 0 ∧ t.reg 1 = State.reset.reg 1 ∧
      exec (.draw 0 1 5) t = .next u := by
  obtain ⟨t, ht⟩ := exec_answers_next (.draw 0 1 5) State.reset
  obtain ⟨u, hu⟩ := exec_answers_next (.draw 0 1 5) t
  have e : t = after (exec (.draw 0 1 5) State.reset) := by rw [ht]; rfl
  exact ⟨by decide, t, u, ht, by rw [e]; decide +kernel, by rw [e]; decide +kernel, hu⟩

/-- HostPixelOperations: Wrap with coordinates outside, Strict at the last pixel, Strict just outside. -/
theorem witness_host_pixel :
    State.reset.discarded = false ∧
    (State.reset.config.oobPolicy = .wrap ∧ (0 : Fin 64).val = 64 % 64 ∧ (0 : Fin 32).val = 32 % 32) ∧
    (strict.oobPolicy = .strict ∧ (63 < 64 ∧ 31 < 32) ∧ (63 : Fin 64).val = 63 % 64 ∧ (31 : Fin 32).val = 31 % 32) ∧
    ¬(64 < 64 ∧ 31 < 32) ∧ ¬(63 < 64 ∧ 32 < 32) := by decide

/-- The reset state meets the invariant (ListenerIdsAreFresh, StepKeepsTheInvariant, HostOperationsKeepTheInvariant). -/
theorem reset_inv : State.reset.Inv where
  memCanonical := by decide
  banksRouted := by decide
  accInPeriod := by decide +kernel
  clockWhole := ⟨0, by decide +kernel⟩
  stackWithin := by intro n h; cases h
  idsFresh := by decide
  faultAtPc := by intro e h; cases h
  discardedBare := by intro h; cases h
  configWf := by decide

/-- Ticks of a state without an error answer a next state. -/
theorem reset_steps : ∃ t, step State.reset = .next t := by
  rw [step_admitted rfl rfl]
  split
  · exact ⟨_, rfl⟩
  · exact exec_answers_next _ _

/-- ListenerIdsAreFresh: a state that meets the invariant with a listener attached, and an id that is not. -/
theorem witness_listener :
    (State.reset.host (.attach ⟨1⟩)).1.discarded = false ∧
    (∃ q ∈ (State.reset.host (.attach ⟨1⟩)).1.video.listeners, q.1 = 0) ∧
    (∀ q ∈ (State.reset.host (.attach ⟨1⟩)).1.video.listeners, q.1 ≠ 1) := by decide

/-- ListenersDoNotAffectTheCore: reset with and without a listener; both clauses have a state. -/
theorem witness_listeners_apart :
    SameButListeners State.reset (State.reset.host (.attach ⟨1⟩)).1 ∧ (∃ t, step State.reset = .next t) ∧
    ∃ f, step (State.reset.raise none (.emptyStack 0x0200#16)) = .fault f :=
  ⟨rfl, reset_steps, _, rfl⟩

/-- SoundTimerIsUnobservable: reset, and reset with another ST. -/
theorem witness_sound_apart :
    SameButSound State.reset { State.reset with timers := { State.reset.timers with st := 0xFF#8 } } ∧
    ∃ t, step State.reset = .next t :=
  ⟨rfl, reset_steps⟩

/-- KeySkips: the highest key index, and the first value past it. -/
theorem witness_key_index :
    ((State.reset.setReg 1 0x0F#8).reg 1).toNat = (0xF : Fin 16).val ∧
    0xF < ((State.reset.setReg 1 0x10#8).reg 1).toNat := by decide

/-- WaitKeyTakesTheLowestKey: only the last key down, the first key down, and none. -/
theorem witness_waitKey :
    ((State.reset.host (.hold 15)).1.keys[(15 : Fin 16)] ≠ .released ∧
      ∀ j : Fin 16, j < 15 → (State.reset.host (.hold 15)).1.keys[j] = .released) ∧
    ((State.reset.host (.hold 0)).1.keys[(0 : Fin 16)] ≠ .released ∧
      ∀ j : Fin 16, j < 0 → (State.reset.host (.hold 0)).1.keys[j] = .released) ∧
    ∀ k : Fin 16, State.reset.keys[k] = .released := by decide

/-- DebounceReleasesPressedKeys: a Held key and a Pressed key, and a tick. -/
theorem witness_debounce :
    (State.reset.host (.hold 15)).1.keys[(15 : Fin 16)] = .held ∧
    (State.reset.host (.press 0)).1.keys[(0 : Fin 16)] ≠ .held ∧ ∃ t, step State.reset = .next t :=
  ⟨by decide, by decide +kernel, reset_steps⟩

/-- HostKeyOperations: the last key, and the first index past it. -/
theorem witness_host_key : State.reset.discarded = false ∧ (15 : Fin 16).val = 15 ∧ 0xF < 16 := by decide

/-- TimerStepConsumesWholePeriods and TimerRateIsIndependentOfPacing: durations that meet the premises, V-TMR-11's. -/
theorem witness_timer :
    0 ≤ State.reset.timers.acc ∧ State.reset.timers.acc < timerPeriod ∧
    ∀ e ∈ ([1 / 180, 1 / 180, 0, 1 / 60] : List ℚ), 0 ≤ e := by decide +kernel

/-- SetupGivesASafeMachine and EveryReachableStateIsSafe: a machine with a one-word image. -/
theorem witness_setup :
    Config.default.wf ∧ (∀ b ∈ [programBank], b.range.min ≤ b.range.max) ∧
    (State.create Config.default standardFont [programBank] [0x12#8, 0x00#8]).isOk = true := by decide

/-- EveryReachableStateIsSafe. -/
theorem witness_reachable : ∃ s, Reachable s := by
  have h := witness_setup.2.2
  cases hc : State.create Config.default standardFont [programBank] [0x12#8, 0x00#8] with
  | error e => rw [hc] at h; cases h
  | ok s => exact ⟨s, .created witness_setup.1 witness_setup.2.1 hc⟩

/-- JumpToSelfIsFinal (V-CF-2). -/
theorem witness_final :
    (load 0x0200#16 [0x12#8, 0x00#8]).discarded = false ∧ (load 0x0200#16 [0x12#8, 0x00#8]).fault = none ∧
    (load 0x0200#16 [0x12#8, 0x00#8]).final :=
  ⟨rfl, rfl, .inr ⟨0x200#12, by decide, by decide⟩⟩

end Sys2Proof.Tests
end

/-! PROOFS. The state (10_state.md): which ticks are admitted, what an instruction writes, that ST is not observed, and
the invariant of a safe run. -/

namespace Sys2Proof.Machine

/-! ### Which ticks are admitted (R29, R119, R135) -/

/-- A tick that is admitted gives a next state. -/
theorem step_answers_next {s : State} (hd : s.discarded = false) (hf : s.fault = none) : ∃ t, step s = .next t := by
  rw [step_admitted hd hf]
  split
  · exact ⟨_, rfl⟩
  · exact exec_answers_next _ _

theorem step_of_fault {s : State} {e : ErrorRecord} (hd : s.discarded = false) (hf : s.fault = some e) :
    step s = .fault (.afterError e) := by
  simp only [step, hd, hf]

theorem step_of_discarded {s : State} (hd : s.discarded = true) : step s = .fault .afterDiscard := by
  simp only [step, hd]

/-- Settles O8: the three outcomes of a tick, one lemma each. -/
theorem tickIsAdmittedUntilAnError : Obligations.TickIsAdmittedUntilAnError :=
  fun _ => ⟨step_answers_next, fun _ => step_of_fault, step_of_discarded⟩

/-! ### What an instruction writes (R16 to R26) -/

/-- A register that is neither a destination nor the flag keeps its value. -/
theorem exec_reg {i : Instr} {s t : State} {r : Reg} (h : exec i s = .next t) (hw : writesReg r i = false)
    (hf : setsFlag i = true → r ≠ vF) : t.reg r = s.reg r := by
  cases i <;> simp only [exec] at h
  -- one destination
  case assignImm x _ | addImm x _ | assign x _ | or x _ | and x _ | xor x _ | random x _ | getDelay x =>
    cases h
    have hx : r ≠ x := by simpa [writesReg] using hw
    exact State.setReg_reg_of_ne _ hx _
  case waitKey x =>
    have hx : r ≠ x := by simpa [writesReg] using hw
    unfold execWaitKey at h
    split at h <;> cases h <;> simp [hx]
  -- one destination, then the flag
  case add x _ | sub x _ | subReverse x _ | shiftRight x _ | shiftLeft x _ =>
    cases h
    have hx : r ≠ x := by simpa [writesReg] using hw
    simp [hx, hf rfl]
  -- the flag alone
  case draw =>
    unfold execDraw at h
    split at h <;> cases h
    · rfl
    · exact State.setFlag_reg_of_ne _ (hf rfl) _
  -- a block of registers
  case loadRegs x =>
    have hx : ¬ r ≤ x := by simpa [writesReg] using hw
    have hl := State.loadFrom_reg_of_not_le s x _ (s.mem.readRange_length_le (s.indexed 0) (x.val + 1)) r hx
    unfold execLoadRegs at h
    split at h <;> next heq => rw [heq] at hl; cases h; exact hl
  -- no register
  case ret => unfold execRet at h; split at h <;> cases h <;> rfl
  case call => unfold execCall at h; split at h <;> cases h <;> rfl
  case skipKeyDown => unfold execSkipKeyDown at h; split at h <;> cases h <;> rfl
  case skipKeyUp => unfold execSkipKeyUp at h; split at h <;> cases h <;> rfl
  case bcd | storeRegs => rcases endStore_next h with ⟨-, rfl⟩ | ⟨e, -, rfl⟩ <;> rfl
  all_goals (cases h; rfl)

/-- Settles O25, by the case split of `exec_reg`. -/
theorem registersChangeOnlyAsListed : Obligations.RegistersChangeOnlyAsListed :=
  fun _ _ _ _ => exec_reg

/-- The parts that few instructions write: each is as it was after every other instruction. -/
theorem exec_writes_only {i : Instr} {s t : State} (h : exec i s = .next t) :
    ((∀ n, i ≠ .setIndex n) → (∀ x, i ≠ .addIndex x) → (∀ x, i ≠ .fontChar x) → t.i = s.i) ∧
    ((∀ n, i ≠ .call n) → i ≠ .ret → t.stack = s.stack) ∧
    ((∀ x, i ≠ .setDelay x) → t.timers.dt = s.timers.dt) ∧
    ((∀ x, i ≠ .setSound x) → t.timers.st = s.timers.st) ∧
    ((∀ x, i ≠ .bcd x) → (∀ x, i ≠ .storeRegs x) → t.mem = s.mem) ∧
    (i ≠ .clearScreen → (∀ x y n, i ≠ .draw x y n) → t.video = s.video) ∧
    ((∀ x nn, i ≠ .random x nn) → t.draws = s.draws) := by
  cases i <;> simp only [exec] at h
  case ret => unfold execRet at h; split at h <;> cases h <;> simp
  case call => unfold execCall at h; split at h <;> cases h <;> simp
  case draw => unfold execDraw at h; split at h <;> cases h <;> simp
  case skipKeyDown => unfold execSkipKeyDown at h; split at h <;> cases h <;> simp
  case skipKeyUp => unfold execSkipKeyUp at h; split at h <;> cases h <;> simp
  case waitKey => unfold execWaitKey at h; split at h <;> cases h <;> simp
  case loadRegs => unfold execLoadRegs at h; split at h <;> cases h <;> simp
  case bcd | storeRegs => rcases endStore_next h with ⟨-, rfl⟩ | ⟨e, -, rfl⟩ <;> simp
  all_goals (cases h; simp)

/-- Settles O26: `exec_writes_only` for what few instructions write, `exec_keeps` for what none writes. -/
theorem instructionsWriteOnlyTheirState : Obligations.InstructionsWriteOnlyTheirState := by
  intro i s t h
  obtain ⟨hi, hstack, hdt, hst, hmem, hvideo, hdraws⟩ := exec_writes_only h
  obtain ⟨hkeys, hconfig, hbanks, hacc, hlast, hlisteners, hnext, hdiscarded⟩ := exec_keeps h
  exact ⟨hi, hstack, hdt, hst, hmem, hvideo, hdraws, hacc, hlast, hkeys, hbanks, hlisteners, hnext, hconfig,
    hdiscarded⟩

/-! ### ST is not observed (R21, R116) -/

/-- The state with another ST. -/
def State.withSound (s : State) (b : Byte) : State := { s with timers := { s.timers with st := b } }

theorem sameButSound_iff (s t : State) : SameButSound s t ↔ ∃ b, t = s.withSound b := by
  constructor
  · exact fun h => ⟨_, h⟩
  · rintro ⟨b, rfl⟩; rfl

section
variable (s : State) (b : Byte)

@[simp] theorem State.withSound_stack : (s.withSound b).stack = s.stack := rfl
@[simp] theorem State.withSound_keys : (s.withSound b).keys = s.keys := rfl
@[simp] theorem State.withSound_mem : (s.withSound b).mem = s.mem := rfl
@[simp] theorem State.withSound_fault : (s.withSound b).fault = s.fault := rfl
@[simp] theorem State.withSound_discarded : (s.withSound b).discarded = s.discarded := rfl
@[simp] theorem State.withSound_reg (r : Reg) : (s.withSound b).reg r = s.reg r := rfl
@[simp] theorem State.withSound_indexed (k : Nat) : (s.withSound b).indexed k = s.indexed k := rfl
@[simp] theorem State.withSound_stackFull : (s.withSound b).stackFull = s.stackFull := rfl
@[simp] theorem State.withSound_fetchDecode : (s.withSound b).fetchDecode = s.fetchDecode := rfl

theorem State.loadFrom_withSound (k : Nat) (bs : List Byte) :
    (s.withSound b).loadFrom k bs = (s.loadFrom k bs).withSound b := by
  induction bs generalizing s k with
  | nil => rfl
  | cons v bs ih => exact ih (s.setReg (Fin.ofNat 16 k) v) (k + 1)

theorem State.endStore_withSound {t : State} {w : InstrWord} {r : Memory × Option CoreError}
    (h : s.endStore w r = .next t) : (s.withSound b).endStore w r = .next (t.withSound b) := by
  unfold State.endStore at h ⊢
  split at h <;> cases h <;> rfl

end

/-- The timer loop tests only the accumulator, so from another ST it ends in the same state but for ST. -/
theorem Timers.loop_withSound (n : ℕ) (t : Timers) (b : Byte) :
    ∃ b', Timers.loop n { t with st := b } = { Timers.loop n t with st := b' } := by
  induction n generalizing t b with
  | zero => exact ⟨b, rfl⟩
  | succ n ih =>
    simp only [Timers.loop]
    split
    · exact ih { t with dt := decrement t.dt, st := decrement t.st, acc := t.acc - timerPeriod } (decrement b)
    · exact ⟨b, rfl⟩

theorem State.beginTick_withSound (s : State) (b : Byte) :
    ∃ b', (s.withSound b).beginTick = s.beginTick.withSound b' := by
  obtain ⟨b', hb⟩ := Timers.loop_withSound (periodsIn (s.timers.acc + elapsedSeconds s.draws.nextElapsed))
    { s.timers with
      acc := s.timers.acc + elapsedSeconds s.draws.nextElapsed
      lastTick := s.timers.lastTick + elapsedSeconds s.draws.nextElapsed } b
  exact ⟨b', congrArg (fun u => { s.beginTick with timers := u }) hb⟩

/-- An instruction runs the same with another ST, and only LD ST, Vx sets it. -/
theorem exec_withSound {i : Instr} {s t : State} (h : exec i s = .next t) (b : Byte) :
    ∃ b', exec i (s.withSound b) = .next (t.withSound b') := by
  cases i <;> simp only [exec] at h ⊢
  case setSound x => cases h; exact ⟨s.reg x, rfl⟩
  all_goals refine ⟨b, ?_⟩
  case ret =>
    unfold execRet at h ⊢
    rw [State.withSound_stack]
    split at h <;> cases h <;> rfl
  case call =>
    unfold execCall at h ⊢
    rw [State.withSound_stackFull]
    split at h <;> next hfull => cases h; simp only [hfull]; rfl
  case draw =>
    unfold execDraw at h ⊢
    rw [State.withSound_mem, State.withSound_indexed]
    split at h <;> cases h <;> rfl
  case skipKeyDown =>
    unfold execSkipKeyDown at h ⊢
    rw [State.withSound_reg]
    split at h <;> cases h <;> rfl
  case skipKeyUp =>
    unfold execSkipKeyUp at h ⊢
    rw [State.withSound_reg]
    split at h <;> cases h <;> rfl
  case waitKey =>
    unfold execWaitKey at h ⊢
    rw [State.withSound_keys]
    split at h <;> cases h <;> rfl
  case loadRegs =>
    unfold execLoadRegs at h ⊢
    simp only [State.withSound_mem, State.withSound_indexed, State.loadFrom_withSound]
    split at h <;> cases h <;> rfl
  case bcd | storeRegs => exact State.endStore_withSound s b h
  all_goals (cases h; rfl)

theorem step_withSound {s t : State} (h : step s = .next t) (b : Byte) :
    ∃ b', step (s.withSound b) = .next (t.withSound b') := by
  obtain ⟨hd, hf, hrun⟩ := step_cases h
  obtain ⟨c, hc⟩ := s.beginTick_withSound b
  rw [step_admitted (s := s.withSound b) hd hf, State.withSound_fetchDecode, hc]
  rcases hrun with ⟨e, w, hfetch, rfl⟩ | ⟨i, hfetch, hexec⟩ <;> rw [hfetch]
  · exact ⟨c, rfl⟩
  · exact exec_withSound hexec c

/-- What a tick that is not admitted answers depends on `fault` and `discarded` alone. -/
theorem step_eq_fault_iff (s : State) (f : Fault) : step s = .fault f ↔
    (s.discarded = true ∧ f = .afterDiscard) ∨
      (s.discarded = false ∧ ∃ e, s.fault = some e ∧ f = .afterError e) := by
  cases hd : s.discarded with
  | true => simp [step_of_discarded hd, eq_comm]
  | false =>
    cases hf : s.fault with
    | some e => simp [step_of_fault hd hf, eq_comm]
    | none =>
      obtain ⟨t, ht⟩ := step_answers_next hd hf
      simp [ht]

/-- Settles O54: the states that differ from `s` in ST alone are the `s.withSound b`, and a tick commutes with it. -/
theorem soundTimerIsUnobservable : Obligations.SoundTimerIsUnobservable := by
  intro s s' hs
  obtain ⟨b, rfl⟩ := (sameButSound_iff s s').1 hs
  refine ⟨fun t ht => ?_, fun f hf => ?_⟩
  · obtain ⟨b', hb'⟩ := step_withSound ht b
    exact ⟨_, hb', (sameButSound_iff t _).2 ⟨b', rfl⟩⟩
  · simpa only [step_eq_fault_iff, State.withSound_fault, State.withSound_discarded] using hf

/-! ### The invariant of a safe run -/

/-- A tick adds the periods it consumes to the whole periods since reset. -/
theorem Timers.tick_lastTick {t : Timers} {e : ℚ} (h : 0 ≤ t.acc + e) {n : ℕ}
    (hn : t.lastTick = n * timerPeriod + t.acc) :
    (t.tick e).lastTick = (n + periodsIn (t.acc + e) : ℕ) * timerPeriod + (t.tick e).acc := by
  obtain ⟨-, -, hacc, hlast⟩ := t.tick_eq e h
  rw [hacc, hlast, hn]
  push_cast
  ring

theorem State.beginTick_inv {s : State} (h : s.Inv) : s.beginTick.Inv := by
  have hacc : 0 ≤ s.timers.acc + elapsedSeconds s.draws.nextElapsed :=
    add_nonneg h.accInPeriod.1 (elapsedSeconds_nonneg _)
  exact { h with
    accInPeriod := s.timers.tick_acc _ hacc
    clockWhole := h.clockWhole.elim fun _ hn => ⟨_, Timers.tick_lastTick hacc hn⟩ }

theorem State.raise_inv {s : State} (h : s.Inv) (w : Option InstrWord) (e : CoreError) : (s.raise w e).Inv :=
  { h with faultAtPc := fun _ he => by cases he; rfl }

theorem exec_mem_wf {i : Instr} {s t : State} (h : exec i s = .next t) (hs : s.mem.wf) : t.mem.wf := by
  rcases exec_mem h with hm | ⟨vs, hm⟩ <;> rw [hm]
  · exact hs
  · exact Memory.wf_writeRange hs _ vs

/-- A push is made only below the limit, and no other instruction makes the stack longer. -/
theorem exec_stackWithin {i : Instr} {s t : State} (h : exec i s = .next t) {n : Nat}
    (hn : s.config.stackLimit = some n) (hs : s.stack.length ≤ n) : t.stack.length ≤ n := by
  rcases exec_stack h with hk | ⟨hpush, hbelow⟩ | ⟨a, hpop⟩
  · rwa [hk]
  · have hne : n ≠ s.stack.length := fun e => hbelow (e ▸ hn)
    rw [hpush, List.length_cons]
    omega
  · rw [hpop, List.length_cons] at hs
    omega

theorem exec_faultAtPc {i : Instr} {s t : State} (h : exec i s = .next t) (hs : s.fault = none) (e : ErrorRecord)
    (he : t.fault = some e) : e.pc = t.pc := by
  rcases exec_fault h with hf | ⟨hpc, e', hf⟩ <;> rw [hf] at he
  · rw [hs] at he; cases he
  · cases he; exact hpc.symm

theorem exec_inv {i : Instr} {s t : State} (hs : s.Inv) (hf : s.fault = none)
    (h : exec i s = .next t) : t.Inv := by
  obtain ⟨-, hconfig, hbanks, hacc, hlast, hlisteners, hnext, hdiscarded⟩ := exec_keeps h
  exact {
    memCanonical := exec_mem_wf h hs.memCanonical
    banksRouted := by rw [Memory.routed, hbanks]; exact hs.banksRouted
    accInPeriod := by rw [hacc]; exact hs.accInPeriod
    clockWhole := by rw [hacc, hlast]; exact hs.clockWhole
    stackWithin := fun n hn => by rw [hconfig] at hn; exact exec_stackWithin h hn (hs.stackWithin n hn)
    idsFresh := by rw [hlisteners, hnext]; exact hs.idsFresh
    faultAtPc := exec_faultAtPc h hf
    discardedBare := by rw [hdiscarded, hlisteners]; exact hs.discardedBare
    configWf := by rw [hconfig]; exact hs.configWf }

/-- Settles O56: the start of the tick keeps the invariant, and so do the error or the instruction that ends it. -/
theorem stepKeepsTheInvariant : Obligations.StepKeepsTheInvariant := by
  intro s t hs h
  obtain ⟨-, hf, ⟨e, w, -, rfl⟩ | ⟨i, -, hexec⟩⟩ := step_cases h
  · exact State.raise_inv (State.beginTick_inv hs) w e
  · exact exec_inv (State.beginTick_inv hs) hf hexec

/-- Settles O55, by the model's own witness of the invariant. -/
theorem resetIsSafe : Obligations.ResetIsSafe := Tests.reset_inv

end Sys2Proof.Machine

/-! PROOFS. The memory mapper (20_memory.md): the checks of an access in order, the default map, and registration. -/

namespace Sys2Proof.Machine

/-! ### The checks of an access, by the bank found (R36 to R38) -/

section
variable {m : Memory} {a : Addr} {b : Bank} (v : Byte)

theorem Memory.read_unmapped (hf : m.find a = none) : m.read a = .error (.unmappedAddress a) := by
  simp only [Memory.read, hf]

theorem Memory.read_writeOnly (hf : m.find a = some b) (hc : b.cap = .writeOnly) :
    m.read a = .error (.unsupportedAccess .read a b.name) := by
  simp only [Memory.read, hf, if_pos hc]

theorem Memory.read_past_store (hf : m.find a = some b) (hc : b.cap ≠ .writeOnly) (hl : b.len ≤ b.offset a) :
    m.read a = .error (.storeBounds a b.name) := by
  simp only [Memory.read, hf, if_neg hc, if_pos hl]

theorem Memory.read_in_store (hf : m.find a = some b) (hc : b.cap ≠ .writeOnly) (hl : b.offset a < b.len) :
    m.read a = .ok (m.peek a) :=
  (m.read_ok_iff a _).2 ⟨b, hf, hc, hl, rfl⟩

theorem Memory.write_unmapped (hf : m.find a = none) : m.write a v = .error (.unmappedAddress a) := by
  simp only [Memory.write, hf]

theorem Memory.write_readOnly (hf : m.find a = some b) (hc : b.cap = .readOnly) :
    m.write a v = .error (.unsupportedAccess .write a b.name) := by
  simp only [Memory.write, hf, if_pos hc]

theorem Memory.write_past_store (hf : m.find a = some b) (hc : b.cap ≠ .readOnly) (hl : b.len ≤ b.offset a) :
    m.write a v = .error (.storeBounds a b.name) := by
  simp only [Memory.write, hf, if_neg hc, if_pos hl]

theorem Memory.write_in_store (hf : m.find a = some b) (hc : b.cap ≠ .readOnly) (hl : b.offset a < b.len) :
    m.write a v = .ok (m.poke a v) :=
  (m.write_ok_iff a v _).2 ⟨b, hf, hc, hl, rfl⟩

/-- A byte that was replaced is read back where its bank can be read. -/
theorem Memory.read_poke_same (hf : m.find a = some b) (hc : b.cap ≠ .writeOnly) (hl : b.offset a < b.len) :
    (m.poke a v).read a = .ok v := by
  rw [Memory.read_in_store (m := m.poke a v) hf hc hl, Memory.peek_poke, if_pos rfl]

theorem Memory.find_of_mem_range (h : m.routed) (hb : b ∈ m.banks) (hmin : b.range.min ≤ a) (hmax : a ≤ b.range.max) :
    m.find a = some b :=
  Memory.find_of_routed h hb ((MemRange.covers_iff _ _).2 ⟨hmin, hmax⟩)

end

/-- Settles O34: the covering bank is the one found, and each check has its lemma. -/
theorem readFollowsTheCoveringBank : Obligations.ReadFollowsTheCoveringBank := by
  refine fun m a hr => ⟨fun h => Memory.read_unmapped (Memory.find_none h), fun b hb hmin hmax => ?_⟩
  have hf := Memory.find_of_mem_range hr hb hmin hmax
  exact ⟨Memory.read_writeOnly hf, Memory.read_past_store hf, fun hc hl => ⟨_, Memory.read_in_store hf hc hl⟩⟩

/-- Settles O35: as O34, and a write that succeeds is a `poke`, with its read-after-write and its frame. -/
theorem writeFollowsTheCoveringBank : Obligations.WriteFollowsTheCoveringBank := by
  refine fun m a v hr => ⟨fun h => Memory.write_unmapped v (Memory.find_none h), fun b hb hmin hmax => ?_⟩
  have hf := Memory.find_of_mem_range hr hb hmin hmax
  refine ⟨Memory.write_readOnly v hf, Memory.write_past_store v hf, fun hc hl => ?_⟩
  exact ⟨m.poke a v, Memory.write_in_store v hf hc hl, fun hrd => Memory.read_poke_same v hf hrd hl,
    fun _ hne => Memory.read_poke_of_ne m v hne, rfl⟩

/-! ### The default map (R41, decision D13) -/

section
variable (font : List Byte) (cells : List Host.Cell) {a : Addr}

theorem fontBank_covers_iff : (fontBank font).range.covers a = true ↔ a.toNat ≤ 0x004F := by
  simp [MemRange.covers_iff, fontBank, BitVec.le_def]

theorem programBank_covers_iff : programBank.range.covers a = true ↔ 0x0200 ≤ a.toNat ∧ a.toNat ≤ 0x0FFF := by
  simp [MemRange.covers_iff, programBank, BitVec.le_def]

theorem defaultMap_routed : Memory.routed ⟨defaultMap font, cells⟩ := by
  simp [Memory.routed, defaultMap, fontBank, programBank, MemRange.overlaps]

theorem defaultMap_find_font (h : a.toNat ≤ 0x004F) :
    Memory.find ⟨defaultMap font, cells⟩ a = some (fontBank font) :=
  Memory.find_of_routed (defaultMap_routed font cells) (by simp [defaultMap]) ((fontBank_covers_iff font).2 h)

theorem defaultMap_find_program (h : 0x0200 ≤ a.toNat ∧ a.toNat ≤ 0x0FFF) :
    Memory.find ⟨defaultMap font, cells⟩ a = some programBank :=
  Memory.find_of_routed (defaultMap_routed font cells) (by simp [defaultMap]) (programBank_covers_iff.2 h)

theorem defaultMap_find_none (h : (0x0050 ≤ a.toNat ∧ a.toNat ≤ 0x01FF) ∨ 0x1000 ≤ a.toNat) :
    Memory.find ⟨defaultMap font, cells⟩ a = none := by
  refine Memory.find_none fun b hb => Bool.eq_false_iff.2 fun hc => ?_
  obtain rfl | rfl : b = fontBank font ∨ b = programBank := by simpa [defaultMap] using hb
  · rw [fontBank_covers_iff] at hc; omega
  · rw [programBank_covers_iff] at hc; omega

theorem fontBank_offset_lt (h : a.toNat ≤ 0x004F) : (fontBank font).offset a < (fontBank font).len := by
  simp only [fontBank, Bank.offset, BitVec.toNat_ofNat]; omega

theorem programBank_offset_lt (h : a.toNat ≤ 0x0FFF) : programBank.offset a < programBank.len := by
  simp only [programBank, Bank.offset, BitVec.toNat_ofNat]; omega

end

/-- Settles O36: one case for each bank an address of the default map is routed to, and one for none. -/
theorem defaultMapRoutes : Obligations.DefaultMapRoutes := by
  refine fun font cells a v => ⟨fun h => ?_, fun hlo hhi => ?_, fun h => ?_⟩
  · have hf := defaultMap_find_font font cells h
    exact ⟨⟨_, Memory.read_in_store hf (by simp [fontBank]) (fontBank_offset_lt font h)⟩,
      Memory.write_readOnly v hf rfl⟩
  · have hf := defaultMap_find_program font cells ⟨hlo, hhi⟩
    have hl := programBank_offset_lt hhi
    exact ⟨⟨_, Memory.read_in_store hf (by decide) hl⟩, ⟨_, Memory.write_in_store v hf (by decide) hl⟩⟩
  · have hf := defaultMap_find_none font cells h
    exact ⟨Memory.read_unmapped hf, Memory.write_unmapped v hf⟩

/-! ### Registration (R34) -/

/-- A conflict of a new bank is a registered bank that shares an address with it. -/
theorem Memory.mem_conflicts_iff {m : Memory} {r : MemRange} (hr : r.min ≤ r.max)
    (hm : ∀ k ∈ m.banks, k.range.min ≤ k.range.max) (k : Bank) :
    k ∈ m.conflicts r ↔ k ∈ m.banks ∧ ∃ a, k.range.covers a = true ∧ r.covers a = true := by
  rw [Memory.conflicts, List.mem_filter]
  exact and_congr_right fun hk => (MemRange.share_iff (hm k hk) hr).symm

theorem Memory.register_of_no_conflict {m : Memory} {b : Bank} (h : m.conflicts b.range = []) :
    m.register b = .ok { m with banks := m.banks ++ [b] } := by
  simp only [Memory.register, h]

theorem Memory.register_of_conflict {m : Memory} {b : Bank} (h : m.conflicts b.range ≠ []) :
    m.register b = .error (.mapConflict b.name ((m.conflicts b.range).map Bank.name)) := by
  unfold Memory.register
  split
  · next hnil => exact absurd hnil h
  · next hcons => rw [hcons]

/-- Settles O37: the registration is decided by `Memory.conflicts`, whose members are the banks that share an address. -/
theorem registrationRejectsOverlap : Obligations.RegistrationRejectsOverlap := by
  intro m b hb hm
  have hmem := Memory.mem_conflicts_iff hb hm
  constructor
  · intro hdisjoint
    refine Memory.register_of_no_conflict (List.eq_nil_iff_forall_not_mem.2 fun k hk => ?_)
    obtain ⟨hkm, a, ha⟩ := (hmem k).1 hk
    exact hdisjoint k hkm a ha
  · rintro ⟨k, hkm, hshare⟩
    refine ⟨_, Memory.register_of_conflict (List.ne_nil_of_mem ((hmem k).2 ⟨hkm, hshare⟩)), fun nm => ?_⟩
    simp only [List.mem_map, hmem]
    exact exists_congr fun _ => and_right_comm.trans and_assoc

end Sys2Proof.Machine

/-! PROOFS. The encoding (30_encoding.md): the decoder and the encoder are inverse to each other on the well-formed
instructions, the words that fail to decode, and the tick that meets one. -/

namespace Sys2Proof.Laws

/-! ### Decoding an encoded instruction (R54, R55) -/

/-- The round trip of each row of R55, put together. -/
theorem decode_encode : ∀ i : Instr, i.wellFormed = true → decode (encode i) = .ok i
  | .nop => RoundTrip.nop
  | .nativeCall nnn => RoundTrip.nativeCall nnn
  | .clearScreen => RoundTrip.clearScreen
  | .ret => RoundTrip.ret
  | .jump nnn => RoundTrip.jump nnn
  | .call nnn => RoundTrip.call nnn
  | .skipEqImm x nn => RoundTrip.skipEqImm x nn
  | .skipNeImm x nn => RoundTrip.skipNeImm x nn
  | .skipEqReg x y => RoundTrip.skipEqReg x y
  | .assignImm x nn => RoundTrip.assignImm x nn
  | .addImm x nn => RoundTrip.addImm x nn
  | .assign x y => RoundTrip.assign x y
  | .or x y => RoundTrip.or x y
  | .and x y => RoundTrip.and x y
  | .xor x y => RoundTrip.xor x y
  | .add x y => RoundTrip.add x y
  | .sub x y => RoundTrip.sub x y
  | .shiftRight x y => RoundTrip.shiftRight x y
  | .subReverse x y => RoundTrip.subReverse x y
  | .shiftLeft x y => RoundTrip.shiftLeft x y
  | .skipNeReg x y => RoundTrip.skipNeReg x y
  | .setIndex nnn => RoundTrip.setIndex nnn
  | .jumpOffset nnn => RoundTrip.jumpOffset nnn
  | .random x nn => RoundTrip.random x nn
  | .draw x y n => RoundTrip.draw x y n
  | .skipKeyDown x => RoundTrip.skipKeyDown x
  | .skipKeyUp x => RoundTrip.skipKeyUp x
  | .getDelay x => RoundTrip.getDelay x
  | .waitKey x => RoundTrip.waitKey x
  | .setDelay x => RoundTrip.setDelay x
  | .setSound x => RoundTrip.setSound x
  | .addIndex x => RoundTrip.addIndex x
  | .fontChar x => RoundTrip.fontChar x
  | .bcd x => RoundTrip.bcd x
  | .storeRegs x => RoundTrip.storeRegs x
  | .loadRegs x => RoundTrip.loadRegs x

/-- Settles O1: one round trip for each row of R55. -/
theorem decodeInvertsEncode : Obligations.DecodeInvertsEncode := decode_encode

/-! ### Encoding a decoded word (R53, R54)

A word is put together again from the fields that the decoder gives the instruction and those that it tested. -/

section
variable {w : InstrWord} {i : Instr}

theorem fmtA_of_op {op : BitVec 4} (ho : fieldOp w = op) : fmtA op (fieldNNN w) = w := by
  rw [← ho, fmtA_fields]

theorem fmtXB_of_op {op : BitVec 4} (ho : fieldOp w = op) : fmtXB op (fieldX w) (fieldNN w) = w := by
  rw [← ho, fmtXB_fields]

theorem fmtXB_of_op_nn {op : BitVec 4} {k : Nat} (ho : fieldOp w = op) (hk : (fieldNN w).toNat = k) :
    fmtXB op (fieldX w) (BitVec.ofNat 8 k) = w := by
  rw [← fieldNN_of_toNat hk, fmtXB_of_op ho]

theorem fmtXYN_of_op {op : BitVec 4} (ho : fieldOp w = op) :
    fmtXYN op (fieldX w) (fieldY w) (fieldN w) = w := by
  rw [← ho, fmtXYN_fields]

theorem fmtXYN_of_op_n {op : BitVec 4} {n : Fin 16} (ho : fieldOp w = op) (hn : fieldN w = n) :
    fmtXYN op (fieldX w) (fieldY w) n = w := by
  rw [← hn, fmtXYN_of_op ho]

theorem encode_of_decodeArith (ho : fieldOp w = 0x8#4) (h : decodeArith w = .ok i) :
    i.wellFormed = true ∧ encode i = w := by
  unfold decodeArith at h
  split at h <;> cases h <;> next hn => exact ⟨rfl, fmtXYN_of_op_n ho (fieldN_of_val hn)⟩

theorem encode_of_decodeKey (ho : fieldOp w = 0xE#4) (h : decodeKey w = .ok i) :
    i.wellFormed = true ∧ encode i = w := by
  unfold decodeKey at h
  split at h <;> cases h <;> next hk => exact ⟨rfl, fmtXB_of_op_nn ho hk⟩

theorem encode_of_decodeMisc (ho : fieldOp w = 0xF#4) (h : decodeMisc w = .ok i) :
    i.wellFormed = true ∧ encode i = w := by
  unfold decodeMisc at h
  split at h <;> cases h <;> next hk => exact ⟨rfl, fmtXB_of_op_nn ho hk⟩

/-- A native call is decoded from no whole word, so its NNN is none of the three that R55 row 2 leaves out. -/
theorem nativeCall_wellFormed (ho : fieldOp w = 0x0#4) (h0 : w ≠ 0x0000#16) (h1 : w ≠ 0x00E0#16)
    (h2 : w ≠ 0x00EE#16) : (Instr.nativeCall (fieldNNN w)).wellFormed = true := by
  have key : ∀ k : Imm12, w ≠ fmtA 0x0#4 k → fieldNNN w ≠ k := fun k hk he => hk (he ▸ (fmtA_of_op ho).symm)
  simp only [Instr.wellFormed, Bool.and_eq_true, bne_iff_ne]
  exact ⟨⟨key _ h0, key _ h1⟩, key _ h2⟩

/-- The dispatch, arm by arm: `h_k` is the arm of the high nibble k - 1. -/
theorem encode_of_decodeByOp (h0 : w ≠ 0x0000#16) (h1 : w ≠ 0x00E0#16) (h2 : w ≠ 0x00EE#16)
    (h : decodeByOp w = .ok i) : i.wellFormed = true ∧ encode i = w := by
  unfold decodeByOp at h
  split at h
  -- format A
  case h_1 hop =>
    cases h
    have ho := fieldOp_of_toNat hop
    exact ⟨nativeCall_wellFormed ho h0 h1 h2, fmtA_of_op ho⟩
  case h_2 hop | h_3 hop | h_11 hop | h_12 hop => cases h; exact ⟨rfl, fmtA_of_op (fieldOp_of_toNat hop)⟩
  -- format XB
  case h_4 hop | h_5 hop | h_7 hop | h_8 hop | h_13 hop =>
    cases h; exact ⟨rfl, fmtXB_of_op (fieldOp_of_toNat hop)⟩
  -- format XYN
  case h_6 hop | h_10 hop =>
    split at h <;> cases h
    next hn => exact ⟨rfl, fmtXYN_of_op_n (fieldOp_of_toNat hop) hn⟩
  case h_14 hop => cases h; exact ⟨rfl, fmtXYN_of_op (fieldOp_of_toNat hop)⟩
  -- the families with a selector of their own
  case h_9 hop => exact encode_of_decodeArith (fieldOp_of_toNat hop) h
  case h_15 hop => exact encode_of_decodeKey (fieldOp_of_toNat hop) h
  case h_16 => exact encode_of_decodeMisc (fieldOp_of_toNat (by have := (fieldOp w).isLt; grind)) h

end

/-- Settles O2: each whole word is its own case, and every other word is put together again from its fields. -/
theorem encodeInvertsDecode : Obligations.EncodeInvertsDecode := by
  intro w i h
  unfold decode at h
  split_ifs at h with h0 h1 h2
  · cases h; exact ⟨rfl, h0.symm⟩
  · cases h; exact ⟨rfl, h1.symm⟩
  · cases h; exact ⟨rfl, h2.symm⟩
  · exact encode_of_decodeByOp h0 h1 h2 h

/-! ### The words that fail to decode (R57) -/

/-- The words of R57, family by family. -/
def IllegalWord (w : InstrWord) : Prop :=
  (fieldOp w = 0x5#4 ∧ fieldN w ≠ 0) ∨
  (fieldOp w = 0x8#4 ∧ (fieldN w).val ∈ [0x8, 0x9, 0xA, 0xB, 0xC, 0xD, 0xF]) ∨
  (fieldOp w = 0x9#4 ∧ fieldN w ≠ 0) ∨
  (fieldOp w = 0xE#4 ∧ fieldNN w ∉ [0x9E#8, 0xA1#8]) ∨
  (fieldOp w = 0xF#4 ∧ fieldNN w ∉ [0x07#8, 0x0A#8, 0x15#8, 0x18#8, 0x1E#8, 0x29#8, 0x33#8, 0x55#8, 0x65#8])

section
variable {w : InstrWord}

theorem decodeArith_error_iff : decodeArith w = .error (.illegalWord w) ↔
    (fieldN w).val ∈ [0x8, 0x9, 0xA, 0xB, 0xC, 0xD, 0xF] := by
  have hlt := (fieldN w).isLt
  unfold decodeArith
  split
  case h_10 =>
    simp only [List.mem_cons, List.not_mem_nil, or_false, true_iff]
    grind
  all_goals next hn => simp [hn]

theorem decodeKey_error_iff : decodeKey w = .error (.illegalWord w) ↔ fieldNN w ∉ [0x9E#8, 0xA1#8] := by
  unfold decodeKey
  split
  case h_3 => simp_all [← BitVec.toNat_inj]
  all_goals next hk => simp [fieldNN_of_toNat hk]

theorem decodeMisc_error_iff : decodeMisc w = .error (.illegalWord w) ↔
    fieldNN w ∉ [0x07#8, 0x0A#8, 0x15#8, 0x18#8, 0x1E#8, 0x29#8, 0x33#8, 0x55#8, 0x65#8] := by
  unfold decodeMisc
  split
  case h_10 => simp_all [← BitVec.toNat_inj]
  all_goals next hk => simp [fieldNN_of_toNat hk]

theorem decodeByOp_error_iff : decodeByOp w = .error (.illegalWord w) ↔ IllegalWord w := by
  unfold decodeByOp IllegalWord
  split
  case h_9 hop => simp [fieldOp_of_toNat hop, decodeArith_error_iff]
  case h_15 hop => simp [fieldOp_of_toNat hop, decodeKey_error_iff]
  case h_16 =>
    have ho : fieldOp w = 0xF#4 := fieldOp_of_toNat (by have := (fieldOp w).isLt; grind)
    simp [ho, decodeMisc_error_iff]
  all_goals next hop => simp [fieldOp_of_toNat hop]

theorem decode_error_iff : decode w = .error (.illegalWord w) ↔ IllegalWord w := by
  by_cases ho : fieldOp w = 0x0#4
  · have hill : ¬ IllegalWord w := by simp [IllegalWord, ho]
    have hok : decodeByOp w ≠ .error (.illegalWord w) := fun h => hill (decodeByOp_error_iff.1 h)
    unfold decode
    split_ifs <;> simp [hill, hok]
  · rw [decode_of_op_ne_zero ho, decodeByOp_error_iff]

end

/-- Settles O3: the words of R57 are those that `decode` refuses, and a refusal always names its word. -/
theorem illegalWordsAreExactlyThese : Obligations.IllegalWordsAreExactlyThese := by
  intro w
  refine ⟨decode_error_iff, ?_⟩
  cases h : decode w with
  | ok i => exact .inl ⟨i, rfl⟩
  | error d => exact .inr (congrArg Except.error (decode_error_eq h))

/-! ### Words written out from the spec (95_test_vectors.md) -/

/-- A word that is written as the encoding of a well-formed instruction decodes to it. -/
theorem decode_of_encode_eq {w : InstrWord} {i : Instr} (hw : encode i = w) (hi : i.wellFormed = true) :
    decode w = .ok i := hw ▸ decode_encode i hi

/-- Settles O4: each legal word is the encoding of its instruction, and the two illegal ones are words of R57. -/
theorem specWordsDecode : Obligations.SpecWordsDecode := by
  refine ⟨?_, ?_, ?_, ?_, ?_, ?_, ?_, ?_, ?_, ?_, ?_, ?_, ?_, ?_⟩
  case refine_13 | refine_14 => exact decode_error_iff.2 (by unfold IllegalWord; decide)
  all_goals exact decode_of_encode_eq (by decide) (by decide)

end Sys2Proof.Laws

namespace Sys2Proof.Machine

open Sys2Proof.Laws

/-! ### The tick that meets an illegal word (R53, R60, R119) -/

theorem Memory.fetch_of_reads {m : Memory} {a : Addr} {hi lo : Byte} (hhi : m.read a = .ok hi)
    (hlo : m.read (a + 1) = .ok lo) : m.fetch a = .ok (hi ++ lo) := by
  simp only [Memory.fetch, hhi, hlo, wordOfBytes]

theorem State.fetchDecode_of_illegal {s : State} {w : InstrWord} {d : DecodeError} (hw : s.mem.fetch s.pc = .ok w)
    (h : decode w = .error d) : s.fetchDecode = .error (.decodeError w, some w) := by
  obtain rfl := decode_error_eq h
  simp only [State.fetchDecode, hw, h, decodeErrorRaised]

/-- An error of fetch or decode is raised from the state that the timers and the debounce leave. -/
theorem step_of_fetchDecode_error {s : State} {e : CoreError} {w : Option InstrWord} (hd : s.discarded = false)
    (hf : s.fault = none) (h : s.fetchDecode = .error (e, w)) : step s = .next (s.beginTick.raise w e) := by
  rw [step_admitted hd hf, h]

/-- Settles O7: the word fetched does not decode, so the tick is its start and the raise. -/
theorem illegalWordEndsTheTick : Obligations.IllegalWordEndsTheTick := by
  intro s hi lo d hd hf hhi hlo hdec
  have hfetch := State.fetchDecode_of_illegal (Memory.fetch_of_reads hhi hlo) hdec
  exact ⟨_, step_of_fetchDecode_error hd hf hfetch, rfl, rfl, rfl, rfl, rfl, rfl, keepsAllBut_beginTick_raise _ _ _⟩

end Sys2Proof.Machine

/-! PROOFS. The cycle and control transfer (40_cycle_and_control.md): the tick that fetches an instruction, the fetch that
fails, and NOP, SYS, the jumps, CALL, RET and the register skips. -/

namespace Sys2Proof.Machine

open Sys2Proof.Laws

/-! ### The tick by what it fetches (R60, R61, R119) -/

theorem State.fetchDecode_of_legal {s : State} {w : InstrWord} {i : Instr} (hw : s.mem.fetch s.pc = .ok w)
    (h : decode w = .ok i) : s.fetchDecode = .ok i := by
  simp only [State.fetchDecode, hw, h]

theorem step_of_fetchDecode_ok {s : State} {i : Instr} (hd : s.discarded = false) (hf : s.fault = none)
    (h : s.fetchDecode = .ok i) : step s = exec i s.beginTick := by
  rw [step_admitted hd hf, h]

/-- Settles O5: the word fetched decodes, so the tick is its start and the instruction. -/
theorem stepRunsDecodedInstruction : Obligations.StepRunsDecodedInstruction := by
  intro s hi lo i hd hf hhi hlo hdec
  have hfetch := State.fetchDecode_of_legal (Memory.fetch_of_reads hhi hlo) hdec
  exact ⟨step_of_fetchDecode_ok hd hf hfetch, rfl, rfl, rfl, rfl, rfl, keepsAllBut_beginTick s⟩

/-- The byte at pc is read first, so its error is the one of the fetch (R120). -/
theorem Memory.fetch_of_first_error {m : Memory} {a : Addr} {e : CoreError} (h : m.read a = .error e) :
    m.fetch a = .error e := by
  simp only [Memory.fetch, h]

theorem Memory.fetch_of_second_error {m : Memory} {a : Addr} {hi : Byte} {e : CoreError} (hhi : m.read a = .ok hi)
    (h : m.read (a + 1) = .error e) : m.fetch a = .error e := by
  simp only [Memory.fetch, hhi, h]

theorem State.fetchDecode_of_fetch_error {s : State} {e : CoreError} (h : s.mem.fetch s.pc = .error e) :
    s.fetchDecode = .error (e, none) := by
  simp only [State.fetchDecode, h]

/-- Settles O6: either byte that cannot be read fails the fetch, so the tick is its start and the raise. -/
theorem fetchErrorEndsTheTick : Obligations.FetchErrorEndsTheTick := by
  intro s e hd hf hread
  have hfetch : s.mem.fetch s.pc = .error e := by
    obtain hfirst | ⟨⟨hi, hhi⟩, hsecond⟩ := hread
    · exact Memory.fetch_of_first_error hfirst
    · exact Memory.fetch_of_second_error hhi hsecond
  exact ⟨_, step_of_fetchDecode_error hd hf (State.fetchDecode_of_fetch_error hfetch), rfl, rfl, rfl, rfl, rfl, rfl,
    keepsAllBut_beginTick_raise _ _ _⟩

/-! ### NOP and SYS (R65, R66) -/

theorem exec_nop (s : State) : exec .nop s = .next { s with pc := s.pc + 2 } := rfl

/-- Settles O10. -/
theorem nopOnlyAdvances : Obligations.NopOnlyAdvances :=
  fun s => ⟨decode_encode .nop rfl, .of_pc (exec_nop s) rfl⟩

theorem exec_nativeCall (nnn : Imm12) (s : State) :
    exec (.nativeCall nnn) s = s.fail (encode (.nativeCall nnn)) (.nativeCall (encode (.nativeCall nnn))) := rfl

/-- Settles O11: the word is the encoding of the native call of its own NNN, which is also the word the error names. -/
theorem nativeCallRaisesUnsupported : Obligations.NativeCallRaisesUnsupported := by
  intro w ho h0 h1 h2
  have henc : encode (.nativeCall (fieldNNN w)) = w := fmtA_of_op ho
  refine ⟨decode_of_encode_eq henc (nativeCall_wellFormed ho h0 h1 h2), fun s => .of_fail ?_⟩
  rw [exec_nativeCall, henc]

/-! ### Jumps (R67, R70) -/

theorem exec_jump (nnn : Imm12) (s : State) : exec (.jump nnn) s = .next { s with pc := zext16 12 nnn } := rfl

/-- Settles O12. -/
theorem jumpSetsPc : Obligations.JumpSetsPc :=
  fun nnn s => ⟨decode_encode (.jump nnn) rfl, .of_pc (exec_jump nnn s) (toNat_zext16_imm nnn)⟩

theorem exec_jumpOffset (nnn : Imm12) (s : State) :
    exec (.jumpOffset nnn) s = .next { s with pc := s.offsetTarget nnn } := rfl

/-- The largest sum is 0xFFF + 0xFF, which 16 bits hold (R70). -/
theorem State.toNat_offsetTarget (s : State) (nnn : Imm12) :
    (s.offsetTarget nnn).toNat = nnn.toNat + (s.reg 0).toNat := by
  have hn := nnn.isLt
  have hr := (s.reg 0).isLt
  rw [State.offsetTarget, BitVec.toNat_add, toNat_zext16_imm, BitVec.toNat_setWidth]
  omega

/-- Settles O16: the sum of `State.toNat_offsetTarget`. -/
theorem jumpOffsetAddsV0 : Obligations.JumpOffsetAddsV0 :=
  fun nnn s => ⟨decode_encode (.jumpOffset nnn) rfl, .of_pc (exec_jumpOffset nnn s) (s.toNat_offsetTarget nnn)⟩

/-! ### CALL and RET (R68, R69) -/

theorem State.stackFull_iff (s : State) : s.stackFull = true ↔ s.config.stackLimit = some s.stack.length := by
  simp only [State.stackFull, beq_iff_eq]

theorem exec_call_of_full {s : State} (nnn : Imm12) (h : s.config.stackLimit = some s.stack.length) :
    exec (.call nnn) s = s.fail (encode (.call nnn)) (.stackOverflow s.pc) :=
  if_pos (s.stackFull_iff.2 h)

theorem exec_call_of_room {s : State} (nnn : Imm12) (h : s.config.stackLimit ≠ some s.stack.length) :
    exec (.call nnn) s = .next { s with stack := s.pc :: s.stack, pc := zext16 12 nnn } :=
  if_neg (mt s.stackFull_iff.1 h)

theorem exec_ret_of_nil {s : State} (h : s.stack = []) : exec .ret s = s.fail (encode .ret) (.emptyStack s.pc) := by
  simp only [exec, execRet, h]

theorem exec_ret_of_cons {s : State} {a : Addr} {rest : List Addr} (h : s.stack = a :: rest) :
    exec .ret s = .next { s with stack := rest, pc := a + 2 } := by
  simp only [exec, execRet, h, State.jumpTo, State.advance]

/-- An instruction that writes the stack and pc. -/
theorem Completes.of_stack_pc {i s st a} {post : State → Prop} (h : exec i s = .next { s with stack := st, pc := a })
    (hp : post { s with stack := st, pc := a }) : Completes i s {.pc, .stack} post :=
  ⟨_, h, hp, keepsAllBut_stack_pc s st a⟩

/-- Settles O13: a case for each side of STACK_LIMIT. -/
theorem callPushesItsOwnAddress : Obligations.CallPushesItsOwnAddress := by
  intro nnn s
  refine ⟨decode_encode (.call nnn) rfl, fun hroom => ?_, fun hfull => ?_⟩
  · exact .of_stack_pc (exec_call_of_room nnn hroom) ⟨toNat_zext16_imm nnn, rfl⟩
  · exact .of_fail (exec_call_of_full nnn hfull)

/-- Settles O14: a case for each form of the stack. -/
theorem returnPopsAndAdvances : Obligations.ReturnPopsAndAdvances := by
  intro s
  refine ⟨decode_encode .ret rfl, fun a rest hcons => ?_, fun hnil => ?_⟩
  · exact .of_stack_pc (exec_ret_of_cons hcons) ⟨rfl, rfl⟩
  · exact .of_fail (exec_ret_of_nil hnil)

/-- Settles O15: RET pops the address that CALL pushed, so that of the two only pc remains changed. -/
theorem callThenReturnResumesAfterTheCall : Obligations.CallThenReturnResumesAfterTheCall :=
  fun nnn s hroom => ⟨_, _, exec_call_of_room nnn hroom, exec_ret_of_cons rfl, rfl, rfl, keepsAllBut_pc s (s.pc + 2)⟩

/-! ### The register skips (R71 to R74) -/

section
variable {i : Instr} {s : State} {b : Bool} {p : Prop} [Decidable p]

/-- A skip taken when the condition holds. -/
theorem Completes.of_skip_when (h : exec i s = .next (s.skipIf b)) (hb : b = true ↔ p) :
    Completes i s {.pc} fun t => t.pc = s.pc + if p then 4 else 2 :=
  .of_pc h (by simp only [hb])

/-- A skip taken when the condition does not hold. -/
theorem Completes.of_skip_unless (h : exec i s = .next (s.skipIf b)) (hb : b = true ↔ ¬p) :
    Completes i s {.pc} fun t => t.pc = s.pc + if p then 2 else 4 :=
  .of_pc h (by simp only [hb, ite_not])

end

section
variable (x y : Reg) (nn : Byte) (s : State)

theorem exec_skipEqImm : exec (.skipEqImm x nn) s = .next (s.skipIf (s.reg x == nn)) := rfl
theorem exec_skipNeImm : exec (.skipNeImm x nn) s = .next (s.skipIf (s.reg x != nn)) := rfl
theorem exec_skipEqReg : exec (.skipEqReg x y) s = .next (s.skipIf (s.reg x == s.reg y)) := rfl
theorem exec_skipNeReg : exec (.skipNeReg x y) s = .next (s.skipIf (s.reg x != s.reg y)) := rfl

end

/-- The register skips with a low nibble that is not 0 are words of R57. -/
theorem decode_fmtXYN_error {op : BitVec 4} (hop : op = 0x5#4 ∨ op = 0x9#4) (x y : Reg) {n : Fin 16} (hn : n ≠ 0) :
    decode (fmtXYN op x y n) = .error (.illegalWord (fmtXYN op x y n)) := by
  refine decode_error_iff.2 ?_
  obtain rfl | rfl := hop
  · exact .inl ⟨fieldOp_fmtXYN .., by rwa [fieldN_fmtXYN]⟩
  · exact .inr (.inr (.inl ⟨fieldOp_fmtXYN .., by rwa [fieldN_fmtXYN]⟩))

/-- Settles O17: the two skips on equality, the two on inequality, and the illegal low nibbles. -/
theorem registerSkips : Obligations.RegisterSkips := by
  intro x y nn s
  refine ⟨⟨decode_encode (.skipEqImm x nn) rfl, ?_⟩, ⟨decode_encode (.skipNeImm x nn) rfl, ?_⟩,
    ⟨decode_encode (.skipEqReg x y) rfl, ?_⟩, ⟨decode_encode (.skipNeReg x y) rfl, ?_⟩, fun n hn => ⟨?_, ?_⟩⟩
  · exact .of_skip_when (exec_skipEqImm x nn s) beq_iff_eq
  · exact .of_skip_unless (exec_skipNeImm x nn s) bne_iff_ne
  · exact .of_skip_when (exec_skipEqReg x y s) beq_iff_eq
  · exact .of_skip_unless (exec_skipNeReg x y s) bne_iff_ne
  · exact decode_fmtXYN_error (.inl rfl) x y hn
  · exact decode_fmtXYN_error (.inr rfl) x y hn

end Sys2Proof.Machine

/-! PROOFS. Register arithmetic, logic, shifts and random (41_arithmetic.md): the results and the flags as numbers, and
each instruction as the write it makes. -/

namespace Sys2Proof.Machine

open Sys2Proof.Laws

/-! ### Results and flags as numbers (R77, R84 to R88) -/

section
variable (a b src : Byte)

/-- The exact sum is below 512, so that its carry is its quotient by 256. -/
theorem toNat_flagByte_carryOut : (flagByte (carryOut a b)).toNat = (a.toNat + b.toNat) / 256 := by
  rw [toNat_flagByte, carryOut]
  split_ifs with h <;> rw [decide_eq_true_eq] at h <;> omega

theorem toNat_flagByte_notBorrow : (flagByte (notBorrow a b)).toNat = if b.toNat ≤ a.toNat then 1 else 0 := by
  rw [toNat_flagByte]
  simp only [notBorrow, decide_eq_true_eq, ge_iff_le]

theorem toNat_byte_sub : (a - b).toNat = (a.toNat + 256 - b.toNat) % 256 := by
  rw [BitVec.toNat_sub]
  omega

theorem toNat_shiftRight_one : (src >>> 1).toNat = src.toNat / 2 := by
  rw [BitVec.toNat_ushiftRight, Nat.shiftRight_eq_div_pow]

theorem toNat_flagByte_shiftedOutRight : (flagByte (shiftedOutRight src)).toNat = src.toNat % 2 := by
  rw [toNat_flagByte, shiftedOutRight, BitVec.getLsbD, Nat.testBit_zero]
  split_ifs with h <;> rw [decide_eq_true_eq] at h <;> omega

/-- Nine bits hold the doubled byte (R88). -/
theorem toNat_shiftLeftExact : (shiftLeftExact src).toNat = src.toNat * 2 := by
  rw [shiftLeftExact, BitVec.toNat_shiftLeft, BitVec.toNat_setWidth, Nat.shiftLeft_eq]
  omega

theorem toNat_shiftLeftExact_low : ((shiftLeftExact src).setWidth 8).toNat = src.toNat * 2 % 256 := by
  rw [BitVec.toNat_setWidth, toNat_shiftLeftExact]

theorem toNat_flagByte_shiftedOutLeft : (flagByte (shiftedOutLeft src)).toNat = src.toNat / 128 := by
  rw [toNat_flagByte, shiftedOutLeft, BitVec.getLsbD, toNat_shiftLeftExact, Nat.testBit_eq_decide_div_mod_eq]
  split_ifs with h <;> rw [decide_eq_true_eq] at h <;> omega

end

/-! ### The instructions that write one register (R78 to R83) -/

section
variable (x y : Reg) (nn : Byte) (s : State)

theorem exec_assignImm : exec (.assignImm x nn) s = .next (s.setReg x nn).advance := rfl
theorem exec_addImm : exec (.addImm x nn) s = .next (s.setReg x (s.reg x + nn)).advance := rfl
theorem exec_assign : exec (.assign x y) s = .next (s.setReg x (s.reg y)).advance := rfl
theorem exec_or : exec (.or x y) s = .next (s.setReg x (s.reg x ||| s.reg y)).advance := rfl
theorem exec_and : exec (.and x y) s = .next (s.setReg x (s.reg x &&& s.reg y)).advance := rfl
theorem exec_xor : exec (.xor x y) s = .next (s.setReg x (s.reg x ^^^ s.reg y)).advance := rfl

end

/-- An instruction whose one result is known by what it says of register X. -/
theorem Completes.of_result {i s x v} {post : State → Prop} (h : exec i s = .next (s.setReg x v).advance)
    (hp : ∀ t : State, t.reg x = v → t.pc = s.pc + 2 → post t) : Completes i s {.pc, .reg x} post :=
  .of_setReg h (hp _ (s.setReg_reg_same x v) rfl)

/-- Settles O18. -/
theorem loadImmediateWritesVx : Obligations.LoadImmediateWritesVx :=
  fun x nn s => ⟨decode_encode (.assignImm x nn) rfl, .of_result (exec_assignImm x nn s) fun _ hx hpc => ⟨hx, hpc⟩⟩

/-- Settles O19: the sum of two bytes is already modulo 2^8. -/
theorem addImmediateWritesNoFlag : Obligations.AddImmediateWritesNoFlag := by
  refine fun x nn s => ⟨decode_encode (.addImm x nn) rfl, .of_result (exec_addImm x nn s) fun t hx hpc => ⟨?_, hpc⟩⟩
  rw [hx, BitVec.toNat_add]

/-- Settles O20: the result of each instruction, read bit by bit. -/
theorem logicWritesNoFlag : Obligations.LogicWritesNoFlag := by
  intro x y s
  refine ⟨⟨decode_encode (.assign x y) rfl, ?_⟩, ⟨decode_encode (.or x y) rfl, ?_⟩,
    ⟨decode_encode (.and x y) rfl, ?_⟩, ⟨decode_encode (.xor x y) rfl, ?_⟩⟩
  · exact .of_result (exec_assign x y s) fun _ hx hpc => ⟨hx, hpc⟩
  · exact .of_result (exec_or x y s) fun _ hx hpc => ⟨hpc, fun _ => hx ▸ BitVec.getLsbD_or⟩
  · exact .of_result (exec_and x y s) fun _ hx hpc => ⟨hpc, fun _ => hx ▸ BitVec.getLsbD_and⟩
  · exact .of_result (exec_xor x y s) fun _ hx hpc => ⟨hpc, fun _ => hx ▸ BitVec.getLsbD_xor⟩

/-! ### The instructions that write a register, then the flag (R84 to R88) -/

section
variable (x y : Reg) (s : State)

theorem exec_add : exec (.add x y) s =
    .next ((s.setReg x (s.reg x + s.reg y)).setFlag (carryOut (s.reg x) (s.reg y))).advance := rfl

theorem exec_sub : exec (.sub x y) s =
    .next ((s.setReg x (s.reg x - s.reg y)).setFlag (notBorrow (s.reg x) (s.reg y))).advance := rfl

theorem exec_subReverse : exec (.subReverse x y) s =
    .next ((s.setReg x (s.reg y - s.reg x)).setFlag (notBorrow (s.reg y) (s.reg x))).advance := rfl

theorem exec_shiftRight : exec (.shiftRight x y) s =
    .next ((s.setReg x (s.shiftSource x y >>> 1)).setFlag (shiftedOutRight (s.shiftSource x y))).advance := rfl

theorem exec_shiftLeft : exec (.shiftLeft x y) s =
    .next ((s.setReg x ((shiftLeftExact (s.shiftSource x y)).setWidth 8)).setFlag
      (shiftedOutLeft (s.shiftSource x y))).advance := rfl

end

/-- The flag is written last, so that it is what VF holds, and X holds the result where it is another register
(decision D5). -/
theorem Completes.of_result_flag {i s x v b} {n f : Nat} (h : exec i s = .next ((s.setReg x v).setFlag b).advance)
    (hv : v.toNat = n) (hb : (flagByte b).toNat = f) :
    Completes i s {.pc, .reg x, .reg vF} fun t =>
      t.pc = s.pc + 2 ∧ (x ≠ vF → (t.reg x).toNat = n) ∧ (t.reg vF).toNat = f := by
  refine .of_setReg_setFlag h ⟨rfl, fun hx => ?_, ?_⟩
  · rw [State.advance_reg, State.setFlag_reg_of_ne _ hx, State.setReg_reg_same, hv]
  · rw [State.advance_reg, State.setFlag_reg_flag, hb]

/-- Settles O21. -/
theorem addWritesSumThenCarry : Obligations.AddWritesSumThenCarry :=
  fun x y s => ⟨decode_encode (.add x y) rfl,
    .of_result_flag (exec_add x y s) (BitVec.toNat_add ..) (toNat_flagByte_carryOut ..)⟩

/-- Settles O22: the two subtractions differ in the order of their operands. -/
theorem subtractWritesDifferenceThenNotBorrow : Obligations.SubtractWritesDifferenceThenNotBorrow := by
  refine fun x y s => ⟨⟨decode_encode (.sub x y) rfl, ?_⟩, ⟨decode_encode (.subReverse x y) rfl, ?_⟩⟩
  · exact .of_result_flag (exec_sub x y s) (toNat_byte_sub ..) (toNat_flagByte_notBorrow ..)
  · exact .of_result_flag (exec_subReverse x y s) (toNat_byte_sub ..) (toNat_flagByte_notBorrow ..)

/-- Settles O23: the source named by the statement is `State.shiftSource`. -/
theorem shiftsWriteResultThenBitOut : Obligations.ShiftsWriteResultThenBitOut := by
  intro x y s src hsrc
  obtain rfl : src = s.shiftSource x y := hsrc
  refine ⟨⟨decode_encode (.shiftRight x y) rfl, ?_⟩, ⟨decode_encode (.shiftLeft x y) rfl, ?_⟩⟩
  · exact .of_result_flag (exec_shiftRight x y s) (toNat_shiftRight_one _) (toNat_flagByte_shiftedOutRight _)
  · exact .of_result_flag (exec_shiftLeft x y s) (toNat_shiftLeftExact_low _) (toNat_flagByte_shiftedOutLeft _)

/-! ### RND (R89) -/

theorem exec_random (x : Reg) (nn : Byte) (s : State) : exec (.random x nn) s =
    .next (({ s with draws := s.draws.takeRandom } : State).setReg x (s.draws.nextRandom &&& nn)).advance := rfl

/-- Changing the bookkeeping of the draws alone. -/
theorem keepsAllBut_draws (s : State) (d : Draws) : KeepsAllBut {.draws} s { s with draws := d } := by
  intro p hp
  cases p with
  | draws => exact absurd rfl hp
  | clock | listeners | output => exact ⟨rfl, rfl⟩
  | _ => rfl

/-- Taking a draw, then writing one register, and pc. -/
theorem keepsAllBut_draws_setReg (s : State) (d : Draws) (r : Reg) (v : Byte) :
    KeepsAllBut {.pc, .reg r, .draws} s (({ s with draws := d } : State).setReg r v).advance := by
  have hdraws := keepsAllBut_draws s d
  have hreg := keepsAllBut_setReg { s with draws := d } r v
  exact (hdraws.mono (by simp)).trans (hreg.mono (by simp [Set.insert_subset_iff]))

/-- Settles O24: the draws of `Draws.takeRandom`, and the draw masked bit by bit. -/
theorem randomMasksTheDraw : Obligations.RandomMasksTheDraw := by
  refine fun x nn s => ⟨decode_encode (.random x nn) rfl, _, exec_random x nn s, ⟨rfl, rfl, fun k => ?_⟩,
    keepsAllBut_draws_setReg s _ x _⟩
  rw [State.advance_reg, State.setReg_reg_same, BitVec.getLsbD_and, Bool.and_comm]

end Sys2Proof.Machine

/-! PROOFS. The index register and the memory instructions (42_index_and_memory.md): I as a number, the block writes of
LD B and LD [I], Vx, and the block load of LD Vx, [I], each where every byte is reached and where one is the first to
fail. -/

namespace Sys2Proof.Machine

open Sys2Proof.Laws

/-! ### The index register (R90 to R92) -/

section
variable (nnn : Imm12) (x : Reg) (s : State)

theorem exec_setIndex : exec (.setIndex nnn) s = .next { s with i := zext16 12 nnn, pc := s.pc + 2 } := rfl
theorem exec_addIndex : exec (.addIndex x) s = .next { s with i := s.i + zext16 8 (s.reg x), pc := s.pc + 2 } := rfl
theorem exec_fontChar : exec (.fontChar x) s = .next { s with i := glyphAddress (s.reg x), pc := s.pc + 2 } := rfl

end

/-- An instruction that writes I, and pc. -/
theorem Completes.of_index_pc {i s a pc} {post : State → Prop} (h : exec i s = .next { s with i := a, pc := pc })
    (hp : post { s with i := a, pc := pc }) : Completes i s {.pc, .index} post :=
  ⟨_, h, hp, keepsAllBut_index_pc s a pc⟩

theorem toNat_add_zext16_byte (a : Addr) (v : Byte) : (a + zext16 8 v).toNat = (a.toNat + v.toNat) % 65536 := by
  rw [BitVec.toNat_add, BitVec.toNat_setWidth, Nat.add_mod_mod]

/-- The largest glyph address is 5 * 0xFF, which 16 bits hold (R92, decision D20). -/
theorem toNat_glyphAddress (v : Byte) : (glyphAddress v).toNat = 5 * v.toNat := by
  have hv := v.isLt
  rw [glyphAddress, BitVec.toNat_ofNat]
  omega

/-- Settles O27. -/
theorem loadIndexSetsI : Obligations.LoadIndexSetsI :=
  fun nnn s => ⟨decode_encode (.setIndex nnn) rfl, .of_index_pc (exec_setIndex nnn s) ⟨toNat_zext16_imm nnn, rfl⟩⟩

/-- Settles O28: the sum and the product as numbers. -/
theorem indexArithmetic : Obligations.IndexArithmetic := by
  refine fun x s => ⟨⟨decode_encode (.addIndex x) rfl, ?_⟩, ⟨decode_encode (.fontChar x) rfl, ?_⟩⟩
  · exact .of_index_pc (exec_addIndex x s) ⟨toNat_add_zext16_byte s.i (s.reg x), rfl⟩
  · exact .of_index_pc (exec_fontChar x s) ⟨toNat_glyphAddress (s.reg x), rfl⟩

/-! ### Block writes (R40, R93, R94) -/

theorem Completes.imp {i s c} {post post' : State → Prop} (h : Completes i s c post) (hp : ∀ t, post t → post' t) :
    Completes i s c post' := by
  obtain ⟨t, hexec, hpost, hkeeps⟩ := h
  exact ⟨t, hexec, hp t hpost, hkeeps⟩

theorem Raises.imp {i s e c} {post post' : State → Prop} (h : Raises i s e c post) (hp : ∀ t, post t → post' t) :
    Raises i s e c post' := by
  obtain ⟨t, hexec, hfault, hpost, hkeeps⟩ := h
  exact ⟨t, hexec, hfault, hp t hpost, hkeeps⟩

section
variable {i : Instr} {s : State} {vs : List Byte}

/-- A range write that succeeds stores each listed byte, in every state that has the memory it leaves. -/
theorem Holds.of_writeRange {t : State} (ht : t.mem = (s.mem.writeRange s.i vs).1) (hlen : vs.length ≤ 65536)
    (hok : (s.mem.writeRange s.i vs).2 = none) {k : Nat} (hk : k < vs.length) :
    Holds s t (s.i + BitVec.ofNat 16 k) vs[k] := by
  refine .of_peek ?_ ?_
  · rw [ht, Memory.writeRange_banks]
  · rw [ht, Memory.peek_writeRange_of_inside s.mem s.i vs hlen hok k hk]

/-- An instruction that ends in a block write whose bytes can all be written. -/
theorem Completes.of_block_write (h : exec i s = s.endStore (encode i) (s.mem.writeRange (s.indexed 0) vs))
    (hlen : vs.length ≤ 65536) (hw : ∀ k < vs.length, CanWrite s (s.i + BitVec.ofNat 16 k)) :
    Completes i s ({.pc} ∪ bytesAt s.i vs.length) fun t =>
      t.pc = s.pc + 2 ∧ ∀ k (hk : k < vs.length), Holds s t (s.i + BitVec.ofNat 16 k) vs[k] := by
  obtain ⟨hstore, hok⟩ := endStore_of_canWrite s (encode i) vs hw
  exact ⟨_, h.trans hstore, ⟨rfl, fun k hk => .of_writeRange rfl hlen hok hk⟩,
    keepsAllBut_writeRange s vs vs.length le_rfl _⟩

/-- An instruction that ends in a block write whose k-th byte is the first that cannot be written: what it writes is
the block of the k bytes before it. -/
theorem Raises.of_block_write (h : exec i s = s.endStore (encode i) (s.mem.writeRange (s.indexed 0) vs))
    (hlen : vs.length ≤ 65536) {k : Nat} (hk : k < vs.length)
    (hw : ∀ j < k, CanWrite s (s.i + BitVec.ofNat 16 j)) {v e}
    (he : s.mem.write (s.i + BitVec.ofNat 16 k) v = .error e) :
    Raises i s e (bytesAt s.i k) fun t =>
      ∀ j (hj : j < k), Holds s t (s.i + BitVec.ofNat 16 j) (vs[j]'(hj.trans hk)) := by
  obtain ⟨hstore, hok⟩ := endStore_of_fail s (encode i) vs k v e hk hw he
  have htake : (vs.take k).length = k := List.length_take_of_le hk.le
  refine ⟨_, h.trans hstore, rfl, fun j hj => ?_, keepsAllBut_writeRange_raise s _ k htake.le _ _⟩
  rw [← List.getElem_take (h := by rwa [htake])]
  exact .of_writeRange rfl (by omega) hok _

end

section
variable (x : Reg) (s : State)

theorem exec_bcd : exec (.bcd x) s =
    s.endStore (encode (.bcd x)) (s.mem.writeRange (s.indexed 0) (decimalDigits (s.reg x))) := rfl

theorem exec_storeRegs : exec (.storeRegs x) s =
    s.endStore (encode (.storeRegs x)) (s.mem.writeRange (s.indexed 0) (s.regBlock x)) := rfl

end

@[simp] theorem decimalDigits_length (v : Byte) : (decimalDigits v).length = 3 := rfl

/-- Each digit of a byte is below its bound, and together they make up the byte (R93). -/
theorem decimalDigits_bounds_and_sum (v : Byte) :
    (BitVec.ofNat 8 (v.toNat / 100)).toNat ≤ 2 ∧ (BitVec.ofNat 8 (v.toNat / 10 % 10)).toNat ≤ 9 ∧
      (BitVec.ofNat 8 (v.toNat % 10)).toNat ≤ 9 ∧
      v.toNat = 100 * (BitVec.ofNat 8 (v.toNat / 100)).toNat + 10 * (BitVec.ofNat 8 (v.toNat / 10 % 10)).toNat +
        (BitVec.ofNat 8 (v.toNat % 10)).toNat := by
  have hv := v.isLt
  simp only [BitVec.toNat_ofNat]
  omega

/-- Settles O29: the block of the three digits. -/
theorem bcdStoresThreeDigits : Obligations.BcdStoresThreeDigits := by
  refine fun x s => ⟨decode_encode (.bcd x) rfl, fun hw => ?_⟩
  refine (Completes.of_block_write (exec_bcd x s) (by simp) hw).imp fun t ⟨hpc, hbyte⟩ => ?_
  have hfirst := hbyte 0 (by simp)
  rw [BitVec.add_zero] at hfirst
  exact ⟨hpc, _, _, _, hfirst, hbyte 1 (by simp), hbyte 2 (by simp),
    decimalDigits_bounds_and_sum (s.reg x)⟩

/-- The block of registers, by register number (R94). -/
theorem State.regBlock_getElem_reg (s : State) (x r : Reg) (h : r.val < (s.regBlock x).length) :
    (s.regBlock x)[r.val] = s.reg r := by
  rw [State.regBlock_getElem, Fin.ofNat_val_eq_self]

/-- Settles O30: the block of the registers up to V[X]. -/
theorem storeRegistersFillsTheBlock : Obligations.StoreRegistersFillsTheBlock := by
  refine fun x s => ⟨decode_encode (.storeRegs x) rfl, fun hw => ?_⟩
  have hlen := s.regBlock_length x
  rw [← hlen] at hw ⊢
  refine (Completes.of_block_write (exec_storeRegs x s) (by omega) hw).imp fun t ⟨hpc, hbyte⟩ => ⟨hpc, fun r hr => ?_⟩
  have hr' : r.val < (s.regBlock x).length := hlen ▸ Nat.lt_succ_of_le hr
  rw [← s.regBlock_getElem_reg x r hr']
  exact hbyte r.val hr'

/-- Settles O31: the two blocks, cut before the byte that fails. -/
theorem failedBlockWriteKeepsEarlierBytes : Obligations.FailedBlockWriteKeepsEarlierBytes := by
  rintro x s k e hw ⟨v, he⟩
  refine ⟨fun hk => ?_, fun hk => ?_⟩
  · have hlen := s.regBlock_length x
    refine (Raises.of_block_write (exec_storeRegs x s) (by omega) (by omega) hw he).imp fun t hbyte r hr => ?_
    rw [← s.regBlock_getElem_reg x r (by omega)]
    exact hbyte r.val hr
  · refine (Raises.of_block_write (exec_bcd x s) (by simp) hk hw he).imp fun t hbyte => ⟨?_, hbyte 1⟩
    rw [← BitVec.add_zero s.i]
    exact hbyte 0

/-! ### Block loads (R40, R95) -/

/-- The registers V0 up to, but not including, V[n]. -/
def regsBelow (n : Nat) : Set Part := { p | ∃ r : Reg, r.val < n ∧ p = .reg r }

section
variable (s : State) (b : Nat → Byte) {n : Nat}

theorem State.loadFrom_range_reg (hn : n ≤ 16) (r : Reg) :
    (s.loadFrom 0 ((List.range n).map b)).reg r = if r.val < n then b r.val else s.reg r := by
  rw [State.loadFrom_reg _ _ _ (by simpa using hn)]
  simp +contextual [List.getD_eq_getElem?_getD]

/-- Loading a block writes the registers of the block alone. -/
theorem keepsAllBut_loadFrom_range (hn : n ≤ 16) :
    KeepsAllBut (regsBelow n) s (s.loadFrom 0 ((List.range n).map b)) := by
  intro p hp
  cases p with
  | reg r =>
    have hr : ¬r.val < n := fun hr => hp ⟨r, hr, rfl⟩
    rw [Part.Kept, s.loadFrom_range_reg b hn, if_neg hr]
  | _ => simp [Part.Kept]

/-- LD Vx, [I] where every byte can be read. -/
theorem exec_loadRegs_of_reads (x : Reg)
    (h : ∀ k < x.val + 1, s.mem.read (s.i + BitVec.ofNat 16 k) = .ok (b k)) :
    exec (.loadRegs x) s = .next (s.loadFrom 0 ((List.range (x.val + 1)).map b)).advance := by
  simp only [exec, execLoadRegs, State.indexed_zero, Memory.readRange_of s.mem s.i _ b h]

/-- LD Vx, [I] where the k-th byte is the first that cannot be read. -/
theorem exec_loadRegs_of_fail {x : Reg} {k : Nat} (hk : k ≤ x.val) {e : CoreError}
    (h : ∀ j < k, s.mem.read (s.i + BitVec.ofNat 16 j) = .ok (b j))
    (he : s.mem.read (s.i + BitVec.ofNat 16 k) = .error e) :
    exec (.loadRegs x) s = (s.loadFrom 0 ((List.range k).map b)).fail (encode (.loadRegs x)) e := by
  simp only [exec, execLoadRegs, State.indexed_zero,
    Memory.readRange_fail s.mem s.i _ k b (Nat.lt_succ_of_le hk) h he]

end

/-- Settles O32: the block loaded, then pc advanced. -/
theorem loadRegistersReadsTheBlock : Obligations.LoadRegistersReadsTheBlock := by
  refine fun x s b => ⟨decode_encode (.loadRegs x) rfl, fun hread => ?_⟩
  have hn : x.val + 1 ≤ 16 := x.isLt
  refine ⟨_, exec_loadRegs_of_reads s b x hread, ⟨by simp, fun r hr => ?_⟩, ?_⟩
  · rw [State.advance_reg, s.loadFrom_range_reg b hn, if_pos (Nat.lt_succ_of_le hr)]
  · refine ((keepsAllBut_loadFrom_range s b hn).mono ?_).trans ((keepsAllBut_pc _ _).mono Set.subset_union_left)
    exact fun p ⟨r, hr, hp⟩ => .inr ⟨r, Nat.le_of_lt_succ hr, hp⟩

/-- Settles O33: the block before the failing byte loaded, then the error raised. -/
theorem failedBlockLoadKeepsEarlierRegisters : Obligations.FailedBlockLoadKeepsEarlierRegisters := by
  intro x s b k e hk hread he
  have hn : k ≤ 16 := by omega
  refine ⟨_, exec_loadRegs_of_fail s b hk hread he, by simp, fun r hr => ?_, ?_⟩
  · rw [State.raise_reg, s.loadFrom_range_reg b hn, if_pos hr]
  · exact ((keepsAllBut_loadFrom_range s b hn).mono Set.subset_union_right).trans
      ((keepsAllBut_raise _ _ _).mono Set.subset_union_left)

end Sys2Proof.Machine

/-! PROOFS. The display (43_display.md): CLS, DRW where its rows can be read and where one is the first to fail, the
host's pixel and listener operations, and that the listeners are not observed. -/

namespace Sys2Proof.Machine

open Sys2Proof.Laws

/-! ### Changing the video memory alone -/

/-- What a new video memory keeps is what its output, registry and pixels keep. -/
theorem keepsAllBut_video {c : Set Part} {s : State} {d : Video} (hout : .output ∈ c)
    (hlisteners : .listeners ∉ c → d.listeners = s.video.listeners ∧ d.nextId = s.video.nextId)
    (hpixel : ∀ x y, .pixel x y ∉ c → d.pixel x y = s.video.pixel x y) : KeepsAllBut c s { s with video := d } := by
  intro p hp
  cases p with
  | output => exact absurd hout hp
  | listeners => exact hlisteners hp
  | pixel x y => exact hpixel x y hp
  | clock => exact ⟨rfl, rfl⟩
  | _ => rfl

/-- An operation of the whole screen keeps the registry. -/
theorem keepsAllBut_screen {s : State} {d : Video} (hlisteners : d.listeners = s.video.listeners)
    (hnext : d.nextId = s.video.nextId) : KeepsAllBut ({.output} ∪ allPixels) s { s with video := d } :=
  keepsAllBut_video (.inl rfl) (fun _ => ⟨hlisteners, hnext⟩) fun x y h => absurd (.inr ⟨x, y, rfl⟩) h

/-! ### CLS (R102, R107) -/

theorem exec_clearScreen (s : State) :
    exec .clearScreen s = .next ({ s with video := s.video.clear } : State).advance := rfl

/-- Settles O39: the screen of `Video.clear`, then pc advanced. -/
theorem clearScreenZeroesEveryPixel : Obligations.ClearScreenZeroesEveryPixel := by
  refine fun s => ⟨decode_encode .clearScreen rfl, _, exec_clearScreen s, ⟨rfl, s.video.clear_pixel, rfl, rfl⟩, ?_⟩
  refine ((keepsAllBut_screen s.video.clear_listeners s.video.clear_nextId).mono ?_).trans
    ((keepsAllBut_pc _ _).mono (by simp))
  exact Set.union_subset_union_left _ (by simp)

/-! ### DRW by the rows it reads (R108, R109) -/

/-- The pixels that a sprite of the listed rows flips, placed by V[X] and V[Y]. -/
def State.sprite (s : State) (x y : Reg) (rows : List Byte) : List (Fin 64 × Fin 32) :=
  spritePixels (s.reg x).toNat (s.reg y).toNat 0 rows

/-- What DRW leaves, by the pixels it flips. -/
def State.drawn (s : State) (ps : List (Fin 64 × Fin 32)) : State :=
  (({ s with video := (s.video.flipAll ps).1 } : State).setFlag (s.video.flipAll ps).2).advance

section
variable {x y n : Fin 16} {s : State}

theorem exec_draw_of_rows {rows : List Byte} (h : s.mem.readRange s.i n.val = (rows, none)) :
    exec (.draw x y n) s = .next (s.drawn (s.sprite x y rows)) := by
  simp only [exec, execDraw, State.indexed_zero, h, State.drawn, State.sprite]

theorem exec_draw_of_error {rows : List Byte} {e : CoreError} (h : s.mem.readRange s.i n.val = (rows, some e)) :
    exec (.draw x y n) s = s.fail (encode (.draw x y n)) e := by
  simp only [exec, execDraw, State.indexed_zero, h]

end

theorem flagByte_eq_one_iff (b : Bool) : flagByte b = 1 ↔ b = true := by cases b <;> decide

theorem flagByte_eq_zero_iff (b : Bool) : flagByte b = 0 ↔ b = false := by cases b <;> decide

section
variable (s : State) {ps : List (Fin 64 × Fin 32)}

theorem State.drawn_pixel (h : ps.Nodup) (px : Fin 64) (py : Fin 32) :
    (s.drawn ps).video.pixel px py = (s.video.pixel px py ^^ decide ((px, py) ∈ ps)) :=
  s.video.flipAll_pixel h px py

theorem State.drawn_reg_flag (h : ps.Nodup) :
    (s.drawn ps).reg vF = flagByte (ps.any fun p => s.video.pixel p.1 p.2) := by
  rw [State.drawn, State.advance_reg, State.setFlag_reg_flag, Video.flipAll_collision _ h]

theorem keepsAllBut_drawn (ps : List (Fin 64 × Fin 32)) :
    KeepsAllBut ({.pc, .output, .reg vF} ∪ allPixels) s (s.drawn ps) := by
  have hscreen := keepsAllBut_screen (s.video.flipAll_listeners ps) (s.video.flipAll_nextId ps)
  have hflag := keepsAllBut_setReg { s with video := (s.video.flipAll ps).1 } vF (flagByte (s.video.flipAll ps).2)
  exact (hscreen.mono (Set.union_subset_union_left _ (by simp))).trans
    (hflag.mono (by simp [Set.insert_subset_iff]))

end

/-! ### DRW where the rows can be read -/

section
variable {x y n : Fin 16} {s : State} {rows : Nat → Byte}

theorem exec_draw_of_reads (h : ∀ r < n.val, s.mem.read (s.i + BitVec.ofNat 16 r) = .ok (rows r)) :
    exec (.draw x y n) s = .next (s.drawn (s.sprite x y ((List.range n.val).map rows))) :=
  exec_draw_of_rows (Memory.readRange_of s.mem s.i n.val rows h)

/-- A draw has at most 15 rows, so that it flips no pixel twice. -/
theorem State.sprite_nodup (s : State) (x y n : Fin 16) (rows : Nat → Byte) :
    (s.sprite x y ((List.range n.val).map rows)).Nodup :=
  nodup_spritePixels _ _ _ _ (by simp; omega)

theorem State.mem_sprite {px : Fin 64} {py : Fin 32} :
    (px, py) ∈ s.sprite x y ((List.range n.val).map rows) ↔ InSprite (s.reg x) (s.reg y) n.val rows px py :=
  mem_sprite_iff (s.reg x) (s.reg y) n.val rows (px, py)

/-- Some pixel of the sprite has the property, in the terms of R109. -/
theorem State.exists_mem_sprite {P : Fin 64 × Fin 32 → Prop} :
    (∃ p ∈ s.sprite x y ((List.range n.val).map rows), P p) ↔
      ∃ px py, InSprite (s.reg x) (s.reg y) n.val rows px py ∧ P (px, py) := by
  simp only [Prod.exists, State.mem_sprite]

end

/-- Settles O40: a sprite's pixels are distinct, so that each is flipped once and seen as it was before the draw. -/
theorem drawXorsTheSprite : Obligations.DrawXorsTheSprite := by
  refine fun x y n s rows => ⟨decode_encode (.draw x y n) rfl, fun hread => ?_⟩
  have hnodup := s.sprite_nodup x y n rows
  have hpixel := s.drawn_pixel hnodup
  refine ⟨_, exec_draw_of_reads hread, ⟨rfl, fun px py hin => ?_, fun px py hout => ?_, fun hset => ?_, fun hset => ?_⟩,
    keepsAllBut_drawn s _⟩
  · simp [hpixel, State.mem_sprite, hin]
  · simp [hpixel, State.mem_sprite, hout]
  · rw [s.drawn_reg_flag hnodup, flagByte_eq_one_iff, List.any_eq_true]
    exact State.exists_mem_sprite.2 hset
  · rw [s.drawn_reg_flag hnodup, flagByte_eq_zero_iff, ← Bool.not_eq_true, List.any_eq_true]
    exact fun h => hset (State.exists_mem_sprite.1 h)

/-- Settles O41: the flips of distinct pixels send the events of `Video.flipAll_events`, in the order of the sprite. -/
theorem drawReportsEveryFlipInOrder : Obligations.DrawReportsEveryFlipInOrder := by
  intro x y n s t rows hread h
  rw [exec_draw_of_reads hread] at h
  cases h
  have hnodup := s.sprite_nodup x y n rows
  refine ⟨_, ?_, s.video.flipAll_events hnodup, s.video.flipAll_calls hnodup⟩
  rw [State.sprite, map_spritePixels]
  simp only [Nat.zero_add]

/-- Settles O42: the range read stops at the lowest failing row, before any pixel is flipped. -/
theorem failedDrawChangesNothing : Obligations.FailedDrawChangesNothing := by
  intro x y n s k e hk hread he
  choose! rows hrows using hread
  exact .of_fail (exec_draw_of_error (Memory.readRange_fail s.mem s.i n.val k rows hk hrows he))

/-- A draw at the same place from the state that the first draw left flips the same pixels. -/
theorem exec_draw_again {x y n : Fin 16} {s : State} {rows : Nat → Byte} (ps : List (Fin 64 × Fin 32))
    (hread : ∀ r < n.val, s.mem.read (s.i + BitVec.ofNat 16 r) = .ok (rows r))
    (hx : (s.drawn ps).reg x = s.reg x) (hy : (s.drawn ps).reg y = s.reg y) :
    exec (.draw x y n) (s.drawn ps) =
      .next ((s.drawn ps).drawn (s.sprite x y ((List.range n.val).map rows))) := by
  have hsprite (l : List Byte) : (s.drawn ps).sprite x y l = s.sprite x y l := by
    rw [State.sprite, hx, hy, State.sprite]
  rw [← hsprite]
  exact exec_draw_of_reads hread

/-- Settles O43: the second draw flips the pixels of the first, and finds each inverted. -/
theorem drawingTwiceRestoresTheScreen : Obligations.DrawingTwiceRestoresTheScreen := by
  intro x y n s t u rows hread ht hx hy hu
  rw [exec_draw_of_reads hread] at ht
  cases ht
  rw [exec_draw_again _ hread hx hy] at hu
  cases hu
  have hnodup := s.sprite_nodup x y n rows
  refine ⟨fun px py => ?_, ?_⟩
  · rw [State.drawn_pixel _ hnodup, State.drawn_pixel _ hnodup, Bool.xor_assoc, Bool.xor_self, Bool.xor_false]
  · rw [State.drawn_reg_flag _ hnodup, flagByte_eq_one_iff, List.any_eq_true]
    have hoff := State.exists_mem_sprite (s := s) (x := x) (y := y) (n := n) (rows := rows)
      (P := fun p => s.video.pixel p.1 p.2 = false)
    refine hoff.symm.trans (exists_congr fun p => and_congr_right fun hp => ?_)
    rw [State.drawn_pixel _ hnodup, decide_eq_true hp, Bool.xor_true, Bool.not_eq_true']

/-! ### Get, Set, Flip and Clear by the host (R98 to R102) -/

theorem OobPolicy.locate_inside {p : OobPolicy} {x y : Nat} {px : Fin 64} {py : Fin 32} (hpx : px.val = x % 64)
    (hpy : py.val = y % 32) (h : p = .wrap ∨ x < 64 ∧ y < 32) : p.locate x y = .ok (px, py) := by
  obtain rfl : px = Fin.ofNat 64 x := Fin.ext hpx
  obtain rfl : py = Fin.ofNat 32 y := Fin.ext hpy
  cases p with
  | wrap => rfl
  | strict => exact if_pos (h.resolve_left (by simp))

theorem OobPolicy.locate_outside {p : OobPolicy} {x y : Nat} (hp : p = .strict) (h : ¬(x < 64 ∧ y < 32)) :
    p.locate x y = .error (.frameBounds x y) := by
  subst hp
  exact if_neg h

/-- What Set leaves at a pixel of the frame. -/
def State.withPixel (s : State) (x : Fin 64) (y : Fin 32) (b : Bool) : State :=
  { s with video := (s.video.clearOutput.setPixel x y b).1 }

section
variable (s : State) {x y : Nat} {px : Fin 64} {py : Fin 32} (b : Bool)

theorem State.hostGet_of_located (h : s.config.oobPolicy.locate x y = .ok (px, py)) :
    s.hostGet x y = (s, .bit (s.video.pixel px py)) := by
  simp only [State.hostGet, h]

theorem State.hostSet_of_located (h : s.config.oobPolicy.locate x y = .ok (px, py)) :
    s.hostSet x y b = (s.withPixel px py b, .bit (s.video.pixel px py)) := by
  simp only [State.hostSet, h]
  rfl

/-- Flip is Set to the other value (R101). -/
theorem State.hostFlip_of_located (h : s.config.oobPolicy.locate x y = .ok (px, py)) :
    s.hostFlip x y = (s.withPixel px py (!s.video.pixel px py), .bit (s.video.pixel px py)) := by
  simp only [State.hostFlip, h]
  rfl

theorem State.withPixel_pixel : (s.withPixel px py b).video.pixel px py = b := by
  rw [State.withPixel, Video.setPixel_pixel, if_pos ⟨rfl, rfl⟩]

/-- Setting a pixel changes no other, and keeps the registry. -/
theorem keepsAllBut_withPixel : KeepsAllBut {.output, .pixel px py} s (s.withPixel px py b) := by
  refine keepsAllBut_video (.inl rfl) (fun _ => ⟨rfl, rfl⟩) fun qx qy hq => ?_
  rw [Video.setPixel_pixel, if_neg, Video.clearOutput_pixel]
  rintro ⟨rfl, rfl⟩
  exact hq (.inr rfl)

end

/-- Settles O44: the three operations at the pixel that the policy locates, the three errors where it locates none, and
Clear. -/
theorem hostPixelOperations : Obligations.HostPixelOperations := by
  intro s x y b px py hd hpx hpy
  simp only [State.host_eq_serve hd, State.serve]
  refine ⟨fun hin => ?_, fun hp hout => ?_, ?_⟩
  · have hloc := OobPolicy.locate_inside hpx hpy hin
    rw [s.hostGet_of_located hloc, s.hostSet_of_located b hloc, s.hostFlip_of_located hloc]
    exact ⟨rfl, rfl, rfl, s.withPixel_pixel b, s.withPixel_pixel _, rfl, rfl, rfl, rfl, keepsAllBut_withPixel s b,
      keepsAllBut_withPixel s _⟩
  · have hloc := OobPolicy.locate_outside hp hout
    simp only [State.hostGet, State.hostSet, State.hostFlip, hloc, and_self]
  · exact ⟨rfl, s.video.clearOutput.clear_pixel, rfl, rfl, keepsAllBut_screen rfl rfl⟩

/-! ### Attach, detach and discard (R104 to R106, R135) -/

section
variable (s : State)

/-- Changing the registry and the output alone. -/
theorem keepsAllBut_registry {d : Video} (hfb : d.fb = s.video.fb) :
    KeepsAllBut {.listeners, .output} s { s with video := d } :=
  keepsAllBut_video (.inr rfl) (fun h => absurd (.inl rfl) h) fun _ _ _ => by rw [Video.pixel, hfb, Video.pixel]

theorem keepsAllBut_discarded (b : Bool) : KeepsAllBut {.discarded} s { s with discarded := b } := by
  intro p hp
  cases p with
  | discarded => exact absurd rfl hp
  | clock | listeners | output => exact ⟨rfl, rfl⟩
  | _ => rfl

theorem keepsAllBut_hostDiscard : KeepsAllBut {.listeners, .output, .discarded} s s.hostDiscard.1 := by
  have hregistry := keepsAllBut_registry s (d := s.hostDiscard.1.video) rfl
  have hdiscarded := keepsAllBut_discarded { s with video := s.hostDiscard.1.video } true
  exact (hregistry.mono (by simp [Set.insert_subset_iff])).trans (hdiscarded.mono (by simp))

end

section
variable {s : State} {id : Nat}

theorem State.hostDetach_of_known (h : ∃ q ∈ s.video.listeners, q.1 = id) :
    s.hostDetach id =
      ({ s with
          video :=
            { s.video with
              listeners := s.video.listeners.filter fun l => l.1 != id
              events := []
              calls := [.teardown id] } }, .done) :=
  if_pos (by simpa only [List.any_eq_true, beq_iff_eq] using h)

theorem State.hostDetach_of_unknown (h : ∀ q ∈ s.video.listeners, q.1 ≠ id) : s.hostDetach id = (s, .absent) :=
  if_neg (by simpa only [List.any_eq_true, beq_iff_eq, not_exists, not_and] using h)

end

/-- Settles O45: the invariant keeps every id below the next one; a discarded machine ticks and serves no more. -/
theorem listenerIdsAreFresh : Obligations.ListenerIdsAreFresh := by
  intro s l id hinv hd
  simp only [State.host_eq_serve hd, State.serve]
  refine ⟨⟨rfl, fun q hq => (hinv.idsFresh.2 q hq).ne, rfl, rfl, rfl, keepsAllBut_registry s rfl⟩, fun hknown => ?_,
    State.hostDetach_of_unknown, rfl, rfl, keepsAllBut_hostDiscard s, step_of_discarded rfl,
    State.host_discarded rfl⟩
  rw [State.hostDetach_of_known hknown]
  refine ⟨rfl, rfl, rfl, fun q => ?_, keepsAllBut_registry s rfl⟩
  rw [List.mem_filter, bne_iff_ne]

/-! ### Which instructions know of the video memory -/

/-- The state with another video memory. -/
def State.withVideo (s : State) (d : Video) : State := { s with video := d }

section
variable (s : State) (d : Video)

@[simp] theorem State.withVideo_stack : (s.withVideo d).stack = s.stack := rfl
@[simp] theorem State.withVideo_keys : (s.withVideo d).keys = s.keys := rfl
@[simp] theorem State.withVideo_mem : (s.withVideo d).mem = s.mem := rfl
@[simp] theorem State.withVideo_reg (r : Reg) : (s.withVideo d).reg r = s.reg r := rfl
@[simp] theorem State.withVideo_indexed (k : Nat) : (s.withVideo d).indexed k = s.indexed k := rfl
@[simp] theorem State.withVideo_stackFull : (s.withVideo d).stackFull = s.stackFull := rfl

theorem State.loadFrom_withVideo (k : Nat) (bs : List Byte) :
    (s.withVideo d).loadFrom k bs = (s.loadFrom k bs).withVideo d := by
  induction bs generalizing s k with
  | nil => rfl
  | cons v bs ih => exact ih (s.setReg (Fin.ofNat 16 k) v) (k + 1)

theorem State.endStore_withVideo {t : State} {w : InstrWord} {r : Memory × Option CoreError}
    (h : s.endStore w r = .next t) : (s.withVideo d).endStore w r = .next (t.withVideo d) := by
  rcases endStore_next h with ⟨hr, rfl⟩ | ⟨e, hr, rfl⟩ <;> simp only [State.endStore, hr] <;> rfl

end

/-- Only CLS and DRW read or write the video memory. -/
theorem exec_withVideo {i : Instr} {s t : State} (h : exec i s = .next t) (hcls : i ≠ .clearScreen)
    (hdrw : ∀ x y n, i ≠ .draw x y n) (d : Video) : exec i (s.withVideo d) = .next (t.withVideo d) := by
  cases i <;> simp only [exec] at h ⊢
  case clearScreen => exact absurd rfl hcls
  case draw x y n => exact absurd rfl (hdrw x y n)
  case ret =>
    unfold execRet at h ⊢
    rw [State.withVideo_stack]
    split at h <;> cases h <;> rfl
  case call =>
    unfold execCall at h ⊢
    rw [State.withVideo_stackFull]
    split at h <;> next hfull => cases h; simp only [hfull]; rfl
  case skipKeyDown =>
    unfold execSkipKeyDown at h ⊢
    rw [State.withVideo_reg]
    split at h <;> cases h <;> rfl
  case skipKeyUp =>
    unfold execSkipKeyUp at h ⊢
    rw [State.withVideo_reg]
    split at h <;> cases h <;> rfl
  case waitKey =>
    unfold execWaitKey at h ⊢
    rw [State.withVideo_keys]
    split at h <;> cases h <;> rfl
  case loadRegs =>
    unfold execLoadRegs at h ⊢
    simp only [State.withVideo_mem, State.withVideo_indexed, State.loadFrom_withVideo]
    split at h <;> cases h <;> rfl
  case bcd | storeRegs => exact State.endStore_withVideo s d h
  all_goals (cases h; rfl)

/-! ### Listeners are not observed (R103, decision D38) -/

/-- The video memory with another registry and other callbacks made. -/
def Video.withListeners (d : Video) (ls : List (Nat × Listener)) (n : Nat) (cs : List ListenerCall) : Video :=
  { d with listeners := ls, nextId := n, calls := cs }

/-- The state with another registry and other callbacks made. -/
def State.withListeners (s : State) (ls : List (Nat × Listener)) (n : Nat) (cs : List ListenerCall) : State :=
  s.withVideo (s.video.withListeners ls n cs)

theorem sameButListeners_iff (s t : State) : SameButListeners s t ↔ ∃ ls n cs, t = s.withListeners ls n cs := by
  constructor
  · exact fun h => ⟨_, _, _, h⟩
  · rintro ⟨ls, n, cs, rfl⟩; rfl

section
variable (ls : List (Nat × Listener)) (n : Nat) (cs : List ListenerCall)

/-- A flip makes its callbacks to the registry there is, and is the same but for these. -/
theorem Video.flipAll_withListeners (d : Video) (ps : List (Fin 64 × Fin 32)) :
    ∃ cs', (d.withListeners ls n cs).flipAll ps = ((d.flipAll ps).1.withListeners ls n cs', (d.flipAll ps).2) := by
  induction ps generalizing d cs with
  | nil => exact ⟨cs, rfl⟩
  | cons p ps ih =>
    have hflip : ∃ cs', (d.withListeners ls n cs).flip p.1 p.2 =
        ((d.flip p.1 p.2).1.withListeners ls n cs', (d.flip p.1 p.2).2) := ⟨_, rfl⟩
    obtain ⟨cs₁, h₁⟩ := hflip
    obtain ⟨cs₂, h₂⟩ := ih cs₁ (d.flip p.1 p.2).1
    exact ⟨cs₂, by simp only [Video.flipAll, h₁, h₂]⟩

theorem State.drawn_withListeners (s : State) (ps : List (Fin 64 × Fin 32)) :
    ∃ cs', (s.withListeners ls n cs).drawn ps = (s.drawn ps).withListeners ls n cs' := by
  obtain ⟨cs', h⟩ := s.video.flipAll_withListeners ls n cs ps
  refine ⟨cs', ?_⟩
  rw [State.drawn, show (s.withListeners ls n cs).video = s.video.withListeners ls n cs from rfl, h]
  rfl

theorem exec_draw_withListeners {x y m : Fin 16} {s t : State} (h : exec (.draw x y m) s = .next t) :
    ∃ cs', exec (.draw x y m) (s.withListeners ls n cs) = .next (t.withListeners ls n cs') := by
  rcases hread : s.mem.readRange s.i m.val with ⟨rows, _ | e⟩
  · rw [exec_draw_of_rows hread] at h
    rw [exec_draw_of_rows (s := s.withListeners ls n cs) hread]
    cases h
    obtain ⟨cs', hdrawn⟩ := s.drawn_withListeners ls n cs (s.sprite x y rows)
    exact ⟨cs', congrArg Host.Outcome.next hdrawn⟩
  · rw [exec_draw_of_error hread] at h
    rw [exec_draw_of_error (s := s.withListeners ls n cs) hread]
    cases h
    exact ⟨cs, rfl⟩

/-- An instruction runs the same with another registry: CLS and DRW make their callbacks to it, and the others know of
no video memory. -/
theorem exec_withListeners {i : Instr} {s t : State} (h : exec i s = .next t) :
    ∃ cs', exec i (s.withListeners ls n cs) = .next (t.withListeners ls n cs') := by
  by_cases hcls : i = .clearScreen
  · subst hcls; cases h; exact ⟨_, rfl⟩
  by_cases hdrw : ∃ x y m, i = .draw x y m
  · obtain ⟨x, y, m, rfl⟩ := hdrw
    exact exec_draw_withListeners ls n cs h
  have hdrw' : ∀ x y m, i ≠ .draw x y m := fun x y m e => hdrw ⟨x, y, m, e⟩
  obtain ⟨-, -, -, -, -, hvideo, -⟩ := exec_writes_only h
  refine ⟨cs, (exec_withVideo h hcls hdrw' (s.video.withListeners ls n cs)).trans ?_⟩
  rw [← hvideo hcls hdrw']
  rfl

theorem step_withListeners {s t : State} (h : step s = .next t) :
    ∃ cs', step (s.withListeners ls n cs) = .next (t.withListeners ls n cs') := by
  obtain ⟨hd, hf, ⟨e, w, hfetch, rfl⟩ | ⟨i, hfetch, hexec⟩⟩ := step_cases h
  · exact ⟨[], step_of_fetchDecode_error (s := s.withListeners ls n cs) hd hf hfetch⟩
  · rw [step_of_fetchDecode_ok (s := s.withListeners ls n cs) hd hf hfetch]
    exact exec_withListeners ls n [] hexec

end

/-- Settles O46: the states that differ from `s` in listeners and callbacks alone are the `s.withListeners ls n cs`, and
a tick commutes with it but for the callbacks. -/
theorem listenersDoNotAffectTheCore : Obligations.ListenersDoNotAffectTheCore := by
  intro s s' hs
  obtain ⟨ls, n, cs, rfl⟩ := (sameButListeners_iff s s').1 hs
  refine ⟨fun t ht => ?_, fun f hf => (step_eq_fault_iff _ f).2 ((step_eq_fault_iff s f).1 hf)⟩
  obtain ⟨cs', hstep⟩ := step_withListeners ls n cs ht
  exact ⟨_, hstep, (sameButListeners_iff t _).2 ⟨ls, n, cs', rfl⟩⟩

end Sys2Proof.Machine

/-! PROOFS. The key and timer instructions (44_input_and_timers.md): key indices, the lowest key down, and the transfers
of DT and ST. -/

namespace Sys2Proof.Machine

open Sys2Proof.Laws

/-! ### Key indices and keys down (R111, R113, R128) -/

theorem keyIndex_of_val {n : Nat} {k : Fin 16} (h : n = k.val) : keyIndex n = .ok k := by
  subst h
  exact dif_pos k.isLt

theorem keyIndex_of_gt {n : Nat} (h : 0xF < n) : keyIndex n = .error (.keyIndexOutOfRange n) :=
  dif_neg (by omega)

theorem keyDown_iff {keys : Vector KeyState 16} {k : Fin 16} : keyDown keys k = true ↔ keys[k] ≠ .released := by
  rw [keyDown_eq, decide_eq_true_iff]

theorem keyDown_eq_false_iff {keys : Vector KeyState 16} {k : Fin 16} :
    keyDown keys k = false ↔ keys[k] = .released := by
  rw [keyDown_eq, decide_eq_false_iff_not, not_not]

theorem firstKeyDown_eq_some_iff {keys : Vector KeyState 16} {k : Fin 16} :
    firstKeyDown keys = some k ↔ keys[k] ≠ .released ∧ ∀ j < k, keys[j] = .released := by
  simp only [firstKeyDown, ← Fin.find?_eq_find?_finRange, Fin.find?_eq_some_iff, keyDown_iff, keyDown_eq_false_iff]

theorem firstKeyDown_eq_none_iff {keys : Vector KeyState 16} :
    firstKeyDown keys = none ↔ ∀ k : Fin 16, keys[k] = .released := by
  simp only [firstKeyDown, ← Fin.find?_eq_find?_finRange, Fin.find?_eq_none_iff, keyDown_eq_false_iff]

/-! ### SKP and SKNP (R111, R112) -/

section
variable {x : Reg} {s : State}

theorem exec_skipKeyDown_of_index {k : Fin 16} (h : keyIndex (s.reg x).toNat = .ok k) :
    exec (.skipKeyDown x) s = .next (s.skipIf (keyDown s.keys k)) := by
  simp only [exec, execSkipKeyDown, h]

theorem exec_skipKeyUp_of_index {k : Fin 16} (h : keyIndex (s.reg x).toNat = .ok k) :
    exec (.skipKeyUp x) s = .next (s.skipIf (!keyDown s.keys k)) := by
  simp only [exec, execSkipKeyUp, h]

theorem exec_skipKeyDown_of_error {e : CoreError} (h : keyIndex (s.reg x).toNat = .error e) :
    exec (.skipKeyDown x) s = s.fail (encode (.skipKeyDown x)) e := by
  simp only [exec, execSkipKeyDown, h]

theorem exec_skipKeyUp_of_error {e : CoreError} (h : keyIndex (s.reg x).toNat = .error e) :
    exec (.skipKeyUp x) s = s.fail (encode (.skipKeyUp x)) e := by
  simp only [exec, execSkipKeyUp, h]

end

/-- Settles O47: a case for an index of a key and one for an index above 0xF. -/
theorem keySkips : Obligations.KeySkips := by
  intro x s
  refine ⟨decode_encode (.skipKeyDown x) rfl, decode_encode (.skipKeyUp x) rfl, fun k hk => ?_, fun hx => ?_⟩
  · have hindex := keyIndex_of_val hk
    have hup : (!keyDown s.keys k) = true ↔ ¬s.keys[k] ≠ .released := by
      rw [← keyDown_iff, Bool.not_eq_true', Bool.not_eq_true]
    exact ⟨.of_skip_when (exec_skipKeyDown_of_index hindex) keyDown_iff,
      .of_skip_unless (exec_skipKeyUp_of_index hindex) hup⟩
  · have herror := keyIndex_of_gt hx
    exact ⟨.of_fail (exec_skipKeyDown_of_error herror), .of_fail (exec_skipKeyUp_of_error herror)⟩

/-! ### LD Vx, K (R113, decision D9) -/

section
variable {s : State}

theorem exec_waitKey_of_key (x : Reg) {k : Fin 16} (h : firstKeyDown s.keys = some k) :
    exec (.waitKey x) s = .next (s.setReg x (BitVec.ofNat 8 k.val)).advance := by
  simp only [exec, execWaitKey, h]

theorem exec_waitKey_of_no_key (x : Reg) (h : firstKeyDown s.keys = none) : exec (.waitKey x) s = .next s := by
  simp only [exec, execWaitKey, h]

end

/-- A key index fits in a register. -/
theorem toNat_keyByte (k : Fin 16) : (BitVec.ofNat 8 k.val).toNat = k.val :=
  Nat.mod_eq_of_lt (by omega)

/-- Settles O48: the key taken is the first of those down, and the state stays where there is none. -/
theorem waitKeyTakesTheLowestKey : Obligations.WaitKeyTakesTheLowestKey := by
  intro x s
  refine ⟨decode_encode (.waitKey x) rfl, fun k hdown hbelow => ?_, fun hnone => ?_⟩
  · have hkey := firstKeyDown_eq_some_iff.2 ⟨hdown, hbelow⟩
    exact .of_result (exec_waitKey_of_key x hkey) fun t hx hpc => ⟨hx ▸ toNat_keyByte k, hpc⟩
  · exact exec_waitKey_of_no_key x (firstKeyDown_eq_none_iff.2 hnone)

/-! ### DT and ST (R114 to R116) -/

section
variable (x : Reg) (s : State)

theorem exec_getDelay : exec (.getDelay x) s = .next (s.setReg x s.timers.dt).advance := rfl

theorem exec_setDelay : exec (.setDelay x) s =
    .next ({ s with timers := { s.timers with dt := s.reg x } } : State).advance := rfl

theorem exec_setSound : exec (.setSound x) s =
    .next ({ s with timers := { s.timers with st := s.reg x } } : State).advance := rfl

end

/-- An instruction that writes DT or ST, and pc: the accumulator and the last-tick instant stay (decision D35). -/
theorem Completes.of_timers {i s c} {d : Timers} {post : State → Prop}
    (h : exec i s = .next ({ s with timers := d } : State).advance) (hpc : .pc ∈ c)
    (hdelay : .delay ∉ c → d.dt = s.timers.dt) (hsound : .sound ∉ c → d.st = s.timers.st)
    (hclock : d.acc = s.timers.acc ∧ d.lastTick = s.timers.lastTick)
    (hp : post ({ s with timers := d } : State).advance) : Completes i s c post := by
  refine ⟨_, h, hp, fun p hkept => ?_⟩
  cases p with
  | pc => exact absurd hpc hkept
  | delay => exact hdelay hkept
  | sound => exact hsound hkept
  | clock => exact hclock
  | listeners | output => exact ⟨rfl, rfl⟩
  | _ => rfl

/-- Settles O49: a register write and the writes of the two timers. -/
theorem timerTransfers : Obligations.TimerTransfers := by
  intro x s
  refine ⟨⟨decode_encode (.getDelay x) rfl, ?_⟩, ⟨decode_encode (.setDelay x) rfl, ?_⟩,
    ⟨decode_encode (.setSound x) rfl, ?_⟩⟩
  · exact .of_result (exec_getDelay x s) fun _ hx hpc => ⟨hx, hpc⟩
  · exact .of_timers (exec_setDelay x s) (.inl rfl) (absurd (.inr rfl)) (fun _ => rfl) ⟨rfl, rfl⟩ ⟨rfl, rfl⟩
  · exact .of_timers (exec_setSound x s) (.inl rfl) (fun _ => rfl) (absurd (.inr rfl)) ⟨rfl, rfl⟩ ⟨rfl, rfl⟩

end Sys2Proof.Machine

/-! PROOFS. Errors, the devices between instructions, the host and runs (60_exceptions.md): what an error leaves, the
timers and the debounce of a tick, the key operations of the host, the invariant along every run, and final states. -/

namespace Sys2Proof.Machine

/-! ### What an error of an instruction leaves (R118, R119, decision D16) -/

/-- What an instruction may have done when it raises an error: nothing, or some loads or writes of the bytes of a
block (R40). -/
inductive PartlyDone (s : State) : Instr → State → Prop where
  | nothing (i : Instr) : PartlyDone s i s
  | loaded (x : Reg) (bs : List Byte) : PartlyDone s (.loadRegs x) (s.loadFrom 0 bs)
  | wroteDigits (x : Reg) (vs : List Byte) :
      PartlyDone s (.bcd x) { s with mem := (s.mem.writeRange (s.indexed 0) vs).1 }
  | wroteRegs (x : Reg) (vs : List Byte) :
      PartlyDone s (.storeRegs x) { s with mem := (s.mem.writeRange (s.indexed 0) vs).1 }

/-- An instruction that raises an error raises it from a state in which it is partly done. -/
theorem exec_raises {i : Instr} {s t : State} {r : ErrorRecord} (hs : s.fault = none) (h : exec i s = .next t)
    (ht : t.fault = some r) : ∃ u e, PartlyDone s i u ∧ t = u.raise (some (encode i)) e := by
  cases i <;> simp only [exec, execRet, execCall, execDraw, execSkipKeyDown, execSkipKeyUp, execWaitKey,
    execLoadRegs] at h
  -- those that raise before they change anything
  case nativeCall => cases h; exact ⟨s, _, .nothing _, rfl⟩
  case ret | call | draw | skipKeyDown | skipKeyUp =>
    split at h <;> cases h
    · exact ⟨s, _, .nothing _, rfl⟩
    · cases hs.symm.trans ht
  -- those that access a block
  case loadRegs x =>
    split at h <;> cases h
    · rw [State.advance_fault, State.loadFrom_fault, hs] at ht; cases ht
    · exact ⟨_, _, .loaded x _, rfl⟩
  case bcd x =>
    obtain ⟨-, rfl⟩ | ⟨e, -, rfl⟩ := endStore_next h
    · cases hs.symm.trans ht
    · exact ⟨_, e, .wroteDigits x _, rfl⟩
  case storeRegs x =>
    obtain ⟨-, rfl⟩ | ⟨e, -, rfl⟩ := endStore_next h
    · cases hs.symm.trans ht
    · exact ⟨_, e, .wroteRegs x _, rfl⟩
  -- those that raise none
  case waitKey => split at h <;> cases h <;> cases hs.symm.trans ht
  all_goals (cases h; cases hs.symm.trans ht)

/-- Settles O9: a case for each way in which an instruction can be partly done. -/
theorem errorsLeaveOnlyPartialBlocks : Obligations.ErrorsLeaveOnlyPartialBlocks := by
  intro i s t r hs h ht
  obtain ⟨u, e, hdone, rfl⟩ := exec_raises hs h ht
  cases ht
  cases hdone with
  | nothing | loaded => simp
  | wroteDigits | wroteRegs => simp [Memory.writeRange_banks]

/-! ### The debounce of a tick (R110, R130) -/

/-- No instruction and no error changes a key, so a tick leaves the cells that the debounce made. -/
theorem step_keys {s t : State} (h : step s = .next t) : t.keys = inputTick s.keys := by
  obtain ⟨-, -, ⟨e, w, -, rfl⟩ | ⟨i, -, hexec⟩⟩ := step_cases h
  · rfl
  · exact (exec_keeps hexec).1

theorem KeyState.debounce_of_ne_held {c : KeyState} (h : c ≠ .held) : c.debounce = .released := by
  cases c with
  | held => exact absurd rfl h
  | released | pressed => rfl

/-- Settles O50. -/
theorem debounceReleasesPressedKeys : Obligations.DebounceReleasesPressedKeys := by
  intro s t h k
  rw [step_keys h, State.beginTick_keys, inputTick_getElem]
  exact ⟨rfl, fun hheld => by rw [hheld]; rfl, KeyState.debounce_of_ne_held⟩

/-! ### The key operations of the host (R128, R129) -/

theorem State.hostKey_of_key (s : State) {k : Nat} {j : Fin 16} (h : j.val = k) (c : KeyState) :
    s.hostKey k c = ({ s with keys := s.keys.set j c }, .done) := by
  simp only [State.hostKey, keyIndex_of_val h.symm]

theorem State.hostKey_of_gt (s : State) {k : Nat} (h : 0xF < k) (c : KeyState) :
    s.hostKey k c = (s, .error (.keyIndexOutOfRange k)) := by
  simp only [State.hostKey, keyIndex_of_gt h]

theorem State.hostIsDown_of_key (s : State) {k : Nat} {j : Fin 16} (h : j.val = k) :
    s.hostIsDown k = (s, .bit (keyDown s.keys j)) := by
  simp only [State.hostIsDown, keyIndex_of_val h.symm]

theorem State.hostIsDown_of_gt (s : State) {k : Nat} (h : 0xF < k) :
    s.hostIsDown k = (s, .error (.keyIndexOutOfRange k)) := by
  simp only [State.hostIsDown, keyIndex_of_gt h]

theorem KeyState.ne_released_iff (c : KeyState) : c ≠ .released ↔ c = .pressed ∨ c = .held := by
  cases c <;> decide

/-- Changing the key cells alone. -/
theorem keepsAllBut_keys (s : State) (ks : Vector KeyState 16) : KeepsAllBut {.keys} s { s with keys := ks } := by
  intro p hp
  cases p with
  | keys => exact absurd rfl hp
  | clock | listeners | output => exact ⟨rfl, rfl⟩
  | _ => rfl

/-- Setting a key cell gives it the new value, keeps the other cells, and changes nothing else. -/
theorem State.hostKey_spec (s : State) {k : Nat} {j : Fin 16} (h : j.val = k) (c : KeyState) :
    (s.hostKey k c).2 = .done ∧ (s.hostKey k c).1.keys[j] = c ∧
      (∀ q : Fin 16, q ≠ j → (s.hostKey k c).1.keys[q] = s.keys[q]) ∧ KeepsAllBut {.keys} s (s.hostKey k c).1 := by
  rw [s.hostKey_of_key h]
  refine ⟨rfl, Vector.getElem_set_self _, fun q hq => ?_, keepsAllBut_keys s _⟩
  exact Vector.getElem_set_ne j.isLt q.isLt fun e => hq (Fin.ext e.symm)

/-- Settles O51: the three setters are `State.hostKey`, with a case for an index of a key and one for an index above
0xF. -/
theorem hostKeyOperations : Obligations.HostKeyOperations := by
  intro s k hd
  refine ⟨fun j hj p hp => ?_, fun hk op hop => ?_⟩
  · have hdown : s.host (.isDown k) = (s, .bit (decide (s.keys[j] = .pressed ∨ s.keys[j] = .held))) := by
      rw [State.host_eq_serve hd, State.serve, s.hostIsDown_of_key hj, keyDown_eq]
      simp only [KeyState.ne_released_iff]
    have hset : s.host p.1 = s.hostKey k p.2 := by
      rw [State.host_eq_serve hd]
      simp only [List.mem_cons, List.not_mem_nil, or_false] at hp
      obtain rfl | rfl | rfl := hp <;> rfl
    obtain ⟨hdone, hcell, hothers, hkeeps⟩ := s.hostKey_spec hj p.2
    rw [hset]
    exact ⟨hdone, hcell, hothers, hkeeps, hdown⟩
  · rw [State.host_eq_serve hd]
    simp only [List.mem_cons, List.not_mem_nil, or_false] at hop
    obtain rfl | rfl | rfl | rfl := hop
    · exact s.hostKey_of_gt hk _
    · exact s.hostKey_of_gt hk _
    · exact s.hostKey_of_gt hk _
    · exact s.hostIsDown_of_gt hk

/-! ### The timers of a tick (R22, R125, R126) -/

theorem mul_timerPeriod (q : ℚ) : q * timerPeriod = q / 60 := mul_one_div q 60

/-- Settles O52: the number of periods is `periodsIn`, and `Timers.tick_eq` is the closed form. -/
theorem timerStepConsumesWholePeriods : Obligations.TimerStepConsumesWholePeriods := by
  intro t e hacc he
  have hsum : 0 ≤ t.acc + e := add_nonneg hacc he
  simp only [← mul_timerPeriod]
  exact ⟨periodsIn (t.acc + e), periodsIn_mul_le hsum, lt_periodsIn_succ_mul hsum, t.tick_eq e hsum⟩

/-- Settles O53, by induction on the ticks: the first tick joins the one tick of the rest. -/
theorem timerRateIsIndependentOfPacing : Obligations.TimerRateIsIndependentOfPacing := by
  intro es
  induction es with
  | nil => exact fun t hlow hhigh _ => (t.tick_zero hlow hhigh).symm
  | cons e es ih =>
    intro t hlow _ hes
    obtain ⟨he, hrest⟩ := List.forall_mem_cons.1 hes
    obtain ⟨hlow', hhigh'⟩ := t.tick_acc e (add_nonneg hlow he)
    rw [List.foldl_cons, ih (t.tick e) hlow' hhigh' hrest, t.tick_tick e es.sum hlow he (List.sum_nonneg hrest),
      List.sum_cons]

/-! ### The invariant along every run (R135) -/

/-- An address in the room that a bank leaves past `a` is backed by the store of that bank (R139). -/
theorem Memory.backed_of_lt_room {m : Memory} (hr : m.routed) {a : Addr} {b : Bank} (hf : m.find a = some b) {k : Nat}
    (hk : k < b.room a) : m.backed (a + BitVec.ofNat 16 k) = true := by
  have hcover : b.range.covers a = true := by simpa using List.find?_some hf
  obtain ⟨hmin, hmax⟩ := (MemRange.covers_iff _ _).1 hcover
  have htop := b.range.max.isLt
  simp only [BitVec.le_def] at hmin hmax
  simp only [Bank.room, Bank.offset] at hk
  have hto : (a + BitVec.ofNat 16 k).toNat = a.toNat + k := by
    rw [BitVec.toNat_add, BitVec.toNat_ofNat]; omega
  refine Memory.backed_of_find (k := b) (Memory.find_of_mem_range hr (List.mem_of_find?_eq_some hf) ?_ ?_) ?_
  · rw [BitVec.le_def, hto]; omega
  · rw [BitVec.le_def, hto]; omega
  · rw [Bank.offset, hto]; omega

/-- Loading an image keeps the canonical form, since the bytes it fills are all backed by the bank over 0x0200. -/
theorem Memory.wf_loadImage {m m' : Memory} {image : List Byte} (hr : m.routed) (hm : m.wf)
    (h : m.loadImage image = .ok m') : m'.wf := by
  obtain ⟨-, -, rfl⟩ | ⟨b, hf, hlen, rfl⟩ := Memory.loadImage_ok h
  · exact hm
  · exact Memory.wf_fill hm fun k hk => Memory.backed_of_lt_room hr hf (hk.trans_le hlen)

theorem Memory.loadImage_banks {m m' : Memory} {image : List Byte} (h : m.loadImage image = .ok m') :
    m'.banks = m.banks := by
  obtain ⟨-, -, rfl⟩ | ⟨b, -, -, rfl⟩ := Memory.loadImage_ok h
  · rfl
  · exact Memory.fill_banks m pcReset image

/-- A machine that setup creates is the reset machine with other parameters and another memory. -/
theorem State.create_inv {config : Config} {font : List Byte} {banks : List Bank} {image : List Byte} {s : State}
    (hc : config.wf) (hb : ∀ b ∈ banks, b.range.min ≤ b.range.max) (h : State.create config font banks image = .ok s) :
    s.Inv := by
  obtain ⟨m, m', hr, hcells, -, hload, rfl⟩ := State.create_ok hb h
  have hm : m.wf := by rw [Memory.wf, hcells]; simp
  exact { resetIsSafe with
    memCanonical := Memory.wf_loadImage hr hm hload
    banksRouted := by rw [Memory.routed, Memory.loadImage_banks hload]; exact hr
    stackWithin := fun n _ => Nat.zero_le n
    configWf := hc }

section
variable {s : State} (h : s.Inv)
include h

/-- An operation on the screen keeps the registry, of which alone the invariant speaks. -/
theorem State.withVideo_inv {d : Video} (hlisteners : d.listeners = s.video.listeners)
    (hnext : d.nextId = s.video.nextId) : (s.withVideo d).Inv :=
  { h with
    idsFresh := by
      show d.listeners.Pairwise _ ∧ ∀ l ∈ d.listeners, l.1 < d.nextId
      rw [hlisteners, hnext]
      exact h.idsFresh
    discardedBare := fun hd => hlisteners.trans (h.discardedBare hd) }

theorem State.hostKey_inv (k : Nat) (c : KeyState) : (s.hostKey k c).1.Inv := by
  unfold State.hostKey
  split
  · exact h
  · exact { h with }

theorem State.hostIsDown_inv (k : Nat) : (s.hostIsDown k).1.Inv := by
  unfold State.hostIsDown
  split <;> exact h

theorem State.hostGet_inv (x y : Nat) : (s.hostGet x y).1.Inv := by
  unfold State.hostGet
  split <;> exact h

theorem State.hostSet_inv (x y : Nat) (b : Bool) : (s.hostSet x y b).1.Inv := by
  unfold State.hostSet
  split
  · exact h
  · exact State.withVideo_inv h rfl rfl

theorem State.hostFlip_inv (x y : Nat) : (s.hostFlip x y).1.Inv := by
  unfold State.hostFlip
  split
  · exact h
  · exact State.withVideo_inv h rfl rfl

/-- The new id is above every id there is, and the next one is above it (R104). -/
theorem State.hostAttach_inv (hd : s.discarded = false) (l : Listener) : (s.hostAttach l).1.Inv := by
  obtain ⟨hrise, hbelow⟩ := h.idsFresh
  refine { h with idsFresh := ⟨?_, ?_⟩, discardedBare := fun hd' => by cases hd.symm.trans hd' }
  · refine List.pairwise_append.2 ⟨hrise, List.pairwise_singleton _ _, fun q hq r hr => ?_⟩
    rw [List.mem_singleton.1 hr]
    exact hbelow q hq
  · intro q hq
    obtain hq | hq := List.mem_append.1 hq
    · exact (hbelow q hq).trans (Nat.lt_succ_self _)
    · rw [List.mem_singleton.1 hq]
      exact Nat.lt_succ_self _

/-- The listeners that stay keep their order. -/
theorem State.hostDetach_inv (hd : s.discarded = false) (id : Nat) : (s.hostDetach id).1.Inv := by
  obtain ⟨hrise, hbelow⟩ := h.idsFresh
  unfold State.hostDetach
  split
  · exact { h with
      idsFresh := ⟨hrise.filter _, fun q hq => hbelow q (List.mem_of_mem_filter hq)⟩
      discardedBare := fun hd' => by cases hd.symm.trans hd' }
  · exact h

theorem State.hostDiscard_inv : s.hostDiscard.1.Inv :=
  { h with
    idsFresh := ⟨.nil, fun _ hq => absurd hq List.not_mem_nil⟩
    discardedBare := fun _ => rfl }

/-- An operation on a machine that is there keeps the invariant. -/
theorem State.serve_inv (hd : s.discarded = false) (op : HostOp) : (s.serve op).1.Inv := by
  cases op with
  | press k => exact State.hostKey_inv h k _
  | hold k => exact State.hostKey_inv h k _
  | release k => exact State.hostKey_inv h k _
  | isDown k => exact State.hostIsDown_inv h k
  | attach l => exact State.hostAttach_inv h hd l
  | detach id => exact State.hostDetach_inv h hd id
  | get x y => exact State.hostGet_inv h x y
  | set x y b => exact State.hostSet_inv h x y b
  | flip x y => exact State.hostFlip_inv h x y
  | clear => exact State.withVideo_inv h rfl rfl
  | discard => exact State.hostDiscard_inv h
  | supplyElapsed | supplyRandom => exact { h with }

end

/-- Settles O57: a discarded machine stays as it is, and one that is there serves the operation. -/
theorem hostOperationsKeepTheInvariant : Obligations.HostOperationsKeepTheInvariant := by
  intro s op h
  cases hd : s.discarded with
  | true => rw [State.host_discarded hd]; exact h
  | false => rw [State.host_eq_serve hd]; exact State.serve_inv h hd op

/-- Settles O59, by induction on how the state is reached. -/
theorem everyReachableStateIsSafe : Obligations.EveryReachableStateIsSafe := by
  intro s hs
  induction hs with
  | created hc hb h => exact State.create_inv hc hb h
  | ticked _ h ih => exact stepKeepsTheInvariant _ _ ih h
  | served _ op ih => exact hostOperationsKeepTheInvariant _ op ih

/-! ### Final states (R136, decision D30) -/

/-- A jump to its own address leaves what the start of the tick left. -/
theorem step_of_jump_to_self {s : State} {nnn : Imm12} (hd : s.discarded = false) (hf : s.fault = none)
    (hfetch : s.fetchDecode = .ok (.jump nnn)) (hself : zext16 12 nnn = s.pc) : step s = .next s.beginTick := by
  rw [step_of_fetchDecode_ok hd hf hfetch, exec_jump, hself]
  rfl

/-- Settles O60: what the start of the tick leaves has the same instruction at the same pc. -/
theorem jumpToSelfIsFinal : Obligations.JumpToSelfIsFinal := by
  intro s hd hf hfinal
  obtain ⟨nnn, hfetch, hself⟩ := hfinal.resolve_left (absurd hf)
  exact ⟨s.beginTick, step_of_jump_to_self hd hf hfetch hself, .inr ⟨nnn, hfetch, hself⟩, hf, keepsAllBut_beginTick s⟩

end Sys2Proof.Machine

/-! PROOFS. Reset and setup (70_reset_and_hazards.md): the bytes of every store after the image is placed, the machine of
the default map, and the font addresses reserved. -/

namespace Sys2Proof.Machine

/-! ### The bytes of the stores after setup (R30, R33, R139) -/

theorem pcReset_toNat : pcReset.toNat = 0x0200 := rfl

/-- The room from a covered address ends within the range, so that no address of it wraps. -/
theorem Bank.add_room_le {b : Bank} {a : Addr} (hc : b.range.covers a = true) :
    a.toNat + b.room a ≤ b.range.max.toNat + 1 := by
  obtain ⟨hmin, hmax⟩ := (MemRange.covers_iff _ _).1 hc
  simp only [BitVec.le_def] at hmin hmax
  simp only [Bank.room, Bank.offset]
  omega

/-- An address is filled when it lies in the interval of the bytes, where the interval does not wrap. -/
theorem Memory.peek_fill (m : Memory) {a : Addr} {vs : List Byte} (hfit : a.toNat + vs.length ≤ 65536) (c : Addr) :
    (m.fill a vs).peek c =
      if a.toNat ≤ c.toNat ∧ c.toNat < a.toNat + vs.length then vs.getD (c.toNat - a.toNat) 0x00#8 else m.peek c := by
  split
  · next hin =>
    have hk : c.toNat - a.toNat < vs.length := by omega
    have hc : c = a + BitVec.ofNat 16 (c.toNat - a.toNat) := by bv_omega
    rw [List.getD_eq_getElem _ _ hk]
    conv_lhs => rw [hc]
    exact Memory.peek_fill_of_inside m a vs (by omega) _ hk
  · next hout =>
    refine Memory.peek_fill_of_outside vs m a c fun k hk hc => hout ?_
    have hto : c.toNat = a.toNat + k := by
      rw [hc, BitVec.toNat_add, BitVec.toNat_ofNat]; omega
    omega

/-- A store to which nothing was written holds its initial bytes (R33). -/
theorem Memory.peek_of_no_cells {m : Memory} (h : m.cells = []) {a : Addr} {b : Bank} (hf : m.find a = some b) :
    m.peek a = b.init.getD (b.offset a) 0x00#8 := by
  simp only [Memory.peek, h, cellAt, Option.getD_none, Memory.unlisted, hf]

section
variable {m m' : Memory} {image : List Byte} (hload : m.loadImage image = .ok m') {b : Bank}
include hload

/-- The bank over 0x0200 holds the image from there. -/
theorem Memory.peek_loadImage_program (hf : m.find pcReset = some b) (a : Addr) :
    m'.peek a =
      if 0x0200 ≤ a.toNat ∧ a.toNat < 0x0200 + image.length then image.getD (a.toNat - 0x0200) 0x00#8
      else m.peek a := by
  obtain ⟨hnone, -⟩ | ⟨p, hp, hlen, rfl⟩ := Memory.loadImage_ok hload
  · cases hnone.symm.trans hf
  · have hroom := Bank.add_room_le (b := p) (a := pcReset) (by simpa using List.find?_some hp)
    have htop := p.range.max.isLt
    exact Memory.peek_fill m (by omega) a

/-- The image lies within the bank over 0x0200, so that every other store keeps its bytes. -/
theorem Memory.peek_loadImage_other (hr : m.routed) {a : Addr} (hf : m.find a = some b)
    (hother : b.range.covers pcReset = false) : m'.peek a = m.peek a := by
  obtain ⟨-, -, rfl⟩ | ⟨p, hp, hlen, -⟩ := Memory.loadImage_ok hload
  · rfl
  · have hcover : p.range.covers pcReset = true := by simpa using List.find?_some hp
    rw [Memory.peek_loadImage_program hload hp, if_neg]
    rintro ⟨hlow, hhigh⟩
    have hroom := Bank.add_room_le hcover
    obtain ⟨hmin, -⟩ := (MemRange.covers_iff _ _).1 hcover
    rw [BitVec.le_def] at hmin
    rw [pcReset_toNat] at hmin hroom
    have hsame : m.find a = some p :=
      Memory.find_of_mem_range hr (List.mem_of_find?_eq_some hp) (by rw [BitVec.le_def]; omega)
        (by rw [BitVec.le_def]; omega)
    cases hf.symm.trans hsame
    cases hother.symm.trans hcover

end

theorem fontBank_atSetup (font : List Byte) : (fontBank font).atSetup = fontBank font :=
  Bank.atSetup_of_other _ rfl

section
variable {config : Config} {font : List Byte} {banks : List Bank} {image : List Byte} {s : State}
  (hb : ∀ b ∈ banks, b.range.min ≤ b.range.max) (h : State.create config font banks image = .ok s)
  {b : Bank} (hmem : b ∈ fontBank font :: banks) {a : Addr} (hcover : b.range.covers a = true)

include hb h hmem hcover

/-- The bank over 0x0200 holds 0x00 before the image and after it (R30, R139). -/
theorem State.create_peek_program (hprogram : b.range.covers pcReset = true) :
    s.mem.peek a = if a.toNat < 0x0200 then 0x00#8 else image.getD (a.toNat - 0x0200) 0x00#8 := by
  obtain ⟨m, m', hr, hcells, hbanks, hload, rfl⟩ := State.create_ok hb h
  have hm : b.atSetup ∈ m.banks := by
    rw [hbanks, ← fontBank_atSetup font, ← List.map_cons]
    exact List.mem_map_of_mem hmem
  have hzero : m.peek a = 0x00#8 := by
    rw [Memory.peek_of_no_cells hcells (Memory.find_of_routed hr hm (by simpa using hcover)),
      Bank.atSetup_init_program b hprogram, List.getD_nil]
  change m'.peek a = _
  rw [Memory.peek_loadImage_program hload (Memory.find_of_routed hr hm (by simpa using hprogram)), hzero]
  by_cases hlow : a.toNat < 0x0200
  · rw [if_pos hlow, if_neg (by omega)]
  · rw [if_neg hlow]
    split
    · rfl
    · rw [List.getD_eq_default _ _ (by omega)]

/-- Every other store, that of the font bank too, holds its initial bytes (R33, R138). -/
theorem State.create_peek_other (hother : b.range.covers pcReset = false) :
    s.mem.peek a = b.init.getD (b.offset a) 0x00#8 := by
  obtain ⟨m, m', hr, hcells, hbanks, hload, rfl⟩ := State.create_ok hb h
  have hm : b ∈ m.banks := by
    rw [hbanks, ← fontBank_atSetup font, ← List.map_cons, ← Bank.atSetup_of_other b hother]
    exact List.mem_map_of_mem hmem
  have hf := Memory.find_of_routed hr hm hcover
  exact (Memory.peek_loadImage_other hload hr hf hother).trans (Memory.peek_of_no_cells hcells hf)

end

/-! ### Setup with the default map (R41, R137, R138, decision D13) -/

theorem registerAll_defaultMap (font : List Byte) :
    Memory.registerAll { banks := [], cells := [] } (fontBank font :: [programBank].map Bank.atSetup) =
      .ok { banks := defaultMap font, cells := [] } := rfl

theorem loadImage_defaultMap (font image : List Byte) :
    Memory.loadImage { banks := defaultMap font, cells := [] } image =
      if image.length ≤ 3584 then .ok (Memory.fill { banks := defaultMap font, cells := [] } pcReset image)
      else .error (.imageTooLong image.length 3584) := by
  simp only [Memory.loadImage, defaultMap_find_program font [] (a := pcReset) (by decide),
    show programBank.room pcReset = 3584 by decide]

/-- The default map accepts every image that its program bank has room for, and no other. -/
theorem State.create_defaultMap (config : Config) (font image : List Byte) :
    State.create config font [programBank] image =
      if image.length ≤ 3584 then
        .ok { State.reset with
          config := config
          mem := Memory.fill { banks := defaultMap font, cells := [] } pcReset image }
      else .error (.imageTooLong image.length 3584) := by
  rw [State.create, registerAll_defaultMap]
  simp only [loadImage_defaultMap]
  by_cases hlen : image.length ≤ 3584
  · simp only [if_pos hlen]
  · simp only [if_neg hlen]

theorem State.reset_reg (r : Reg) : State.reset.reg r = 0x00#8 := by
  simp [State.reset, State.reg]

theorem State.reset_keys (k : Fin 16) : State.reset.keys[k] = .released := by
  simp [State.reset]

theorem State.reset_pixel (x : Fin 64) (y : Fin 32) : State.reset.video.pixel x y = false := by
  simp [State.reset, Video.pixel]

section
variable {config : Config} {font image : List Byte} {s : State}
  (h : State.create config font [programBank] image = .ok s)
include h

theorem State.create_defaultMap_mem : s.mem = ⟨defaultMap font, s.mem.cells⟩ := by
  rw [State.create_defaultMap] at h
  split at h
  · cases h
    exact congrArg (Memory.mk · _) (Memory.fill_banks ⟨defaultMap font, []⟩ pcReset image)
  · cases h

theorem State.create_defaultMap_read_program {k : Nat} (hk : k < 3584) :
    s.mem.read (0x0200#16 + BitVec.ofNat 16 k) = .ok (image.getD k 0x00#8) := by
  have hto : (0x0200#16 + BitVec.ofNat 16 k).toNat = 0x0200 + k := by
    rw [BitVec.toNat_add, BitVec.toNat_ofNat, BitVec.toNat_ofNat]; omega
  have hrange : 0x0200 ≤ (0x0200#16 + BitVec.ofNat 16 k).toNat ∧ (0x0200#16 + BitVec.ofNat 16 k).toNat ≤ 0x0FFF := by
    omega
  have hf := defaultMap_find_program font s.mem.cells hrange
  rw [← State.create_defaultMap_mem h] at hf
  rw [Memory.read_in_store hf (by decide) (programBank_offset_lt hrange.2),
    State.create_peek_program (b := programBank) (by decide) h (by simp) (programBank_covers_iff.2 hrange) (by decide),
    hto, if_neg (by omega), Nat.add_sub_cancel_left]

theorem State.create_defaultMap_read_font {k : Nat} (hk : k < 80) :
    s.mem.read (BitVec.ofNat 16 k) = .ok (font.getD k 0x00#8) := by
  have hto : (BitVec.ofNat 16 k).toNat = k := by rw [BitVec.toNat_ofNat]; omega
  have hrange : (BitVec.ofNat 16 k).toNat ≤ 0x004F := by omega
  have hf := defaultMap_find_font font s.mem.cells hrange
  rw [← State.create_defaultMap_mem h] at hf
  rw [Memory.read_in_store hf (by simp [fontBank]) (fontBank_offset_lt font hrange),
    State.create_peek_other (b := fontBank font) (by decide) h (by simp) ((fontBank_covers_iff font).2 hrange) rfl]
  simp only [fontBank, Bank.offset, hto, BitVec.toNat_ofNat, Nat.zero_mod, Nat.sub_zero]

end

/-- Settles O38: the default map has its equation of setup, and any bank list the bytes of each store. -/
theorem setupPlacesTheImage : Obligations.SetupPlacesTheImage := by
  refine fun config font image => ⟨fun hlen => ?_, fun hlen => ?_, fun banks s hb h b hmem a hcover _ => ?_⟩
  · have h := State.create_defaultMap config font image
    rw [if_pos hlen] at h
    exact ⟨_, h, rfl, State.reset_reg, rfl, rfl, rfl, rfl, rfl, rfl, State.reset_keys, State.reset_pixel, rfl, rfl,
      rfl, rfl, rfl, fun _ => State.create_defaultMap_read_program h, fun _ => State.create_defaultMap_read_font h⟩
  · exact ⟨_, (State.create_defaultMap config font image).trans (if_neg hlen.not_ge)⟩
  · have hin := List.mem_cons_of_mem (fontBank font) hmem
    exact ⟨State.create_peek_program hb h hin hcover, State.create_peek_other hb h hin hcover⟩

/-! ### The font addresses (R34, R35, decision D13) -/

theorem MemRange.overlaps_comm (r q : MemRange) : r.overlaps q = q.overlaps r := Bool.and_comm _ _

/-- Settles O58: the font bank is registered first, and no two banks registered overlap. -/
theorem setupGivesASafeMachine : Obligations.SetupGivesASafeMachine := by
  intro config font banks image s hc hb h
  refine ⟨State.create_inv hc hb h, fun b hmem => ?_⟩
  obtain ⟨m, -, hr, -, hbanks, -⟩ := State.create_ok hb h
  have hpairs := hr.1
  rw [hbanks] at hpairs
  have hfont := List.rel_of_pairwise_cons hpairs (List.mem_map_of_mem hmem)
  rw [Bank.atSetup_range, MemRange.overlaps_comm] at hfont
  exact hfont

end Sys2Proof.Machine
